-- ==== Sys2Proof/Word.lean ====
section
/-! DEFINITION. The widths the spec counts in (`00_scope.md` R9, `20_memory.md` R60, R61). -/

namespace Sys2Proof

/-- A byte (R9): a byte of the frame, a flags byte, the data of a 1-byte access. -/
abbrev Byte := BitVec 8

/-- A 16-bit number (R9): `sequence_number`, `checksum`, every length. -/
abbrev Half := BitVec 16

/-- A 32-bit number (R9, R61): the running sum, the data of a 4-byte access, a command word. -/
abbrev Word := BitVec 32

/-- A host-port address (R60: the space is 17 bits wide). -/
abbrev Addr := BitVec 17

end Sys2Proof
end

