-- ==== Sys2Proof/Config.lean ====
section
/-! DEFINITION. The parameters of an RCF instance (`00_scope.md` R8) and the free value that stands for
whatever the spec leaves unspecified (`10_state.md` R43, `93_implementation_defined.md` U1). -/

namespace Sys2Proof

/-- Where the trailing odd byte of a checksummed string goes in its word (R8, R130; `90_conflicts.md` C3). -/
inductive OddPad where
  /-- the byte is the low byte of its word (the default, the literal text) -/
  | zext
  /-- the byte is the high byte of its word -/
  | rfcHigh
deriving DecidableEq, Repr

/-- The configuration of one instance (R8): "A model takes them as configuration".
`MAX_PACKET_SIZE` is at most 65530 by its type, so every `Config` is a legal one. -/
structure Config where
  maxPacketSize : Fin 65531
  oddPad : OddPad
deriving DecidableEq, Repr

/-- The values of R8's "value" column: `MAX_PACKET_SIZE` = 59800, `ODD_PAD` = `ZEXT`. -/
def Config.reference : Config := { maxPacketSize := 59800, oddPad := .zext }

/-- FREE VALUE (log 5). What a buffer byte never written since hard reset reads as: the value of byte `i` in the
read numbered `draw`. It has no body: nothing can be proved of its values, nor that two reads agree (R43). -/
opaque Config.freeByte (draw i : Nat) : Byte

end Sys2Proof
end

