-- ==== Sys2Proof/Syntax.lean ====
section
/-! DEFINITION. The instructions: one constructor per row of `spec/opcode_table.json`. -/

namespace Sys2Proof

/-- The seven commands (format `CMD`, R102; they have no operand field, R101) and the seven packet-kind
predicates (format `FLAGS`, R97), each applied to the flags byte `f` it is a predicate of. -/
inductive Instr where
  | csumCompute
  | csumVerify
  | hdrPack
  | hdrUnpack
  | pktEncode
  | pktDecode
  | srst
  | kSyn (f : Byte)
  | kSynack (f : Byte)
  | kAck (f : Byte)
  | kFin (f : Byte)
  | kFinack (f : Byte)
  | kNack (f : Byte)
  | kData (f : Byte)
deriving DecidableEq, Repr

end Sys2Proof
end

