-- ==== Sys2Proof/WellFormed.lean ====
section
/-! DEFINITION. Which terms of `Instr` some encoding stands for. -/

namespace Sys2Proof

/-- A command has no operand, so it is well formed. A kind row is well formed with the flags bytes it matches:
`(flags & mask) == match` (R97). The rows are not exclusive: `0x05` is well formed under three of them. -/
def Instr.WellFormed : Instr → Bool
  | .csumCompute => true
  | .csumVerify => true
  | .hdrPack => true
  | .hdrUnpack => true
  | .pktEncode => true
  | .pktDecode => true
  | .srst => true
  | .kSyn f => f &&& 0x01 == 0x01
  | .kSynack f => f &&& 0x05 == 0x05
  | .kAck f => f &&& 0x04 == 0x04
  | .kFin f => f &&& 0x08 == 0x08
  | .kFinack f => f &&& 0x10 == 0x10
  | .kNack f => f &&& 0x40 == 0x40
  | .kData f => f &&& 0x80 == 0x80

end Sys2Proof
end

