-- ==== Sys2Proof/Decode.lean ====
section
/-! DEFINITION. The two encodings of `30_encoding.md`: the command word (R101 to R104) and the flags byte
(R95 to R99), each as a table of mask and match; the decoder, total on any bits; and the encoder. -/

namespace Sys2Proof

/-- The seven packet-kind predicates by name (R97). -/
inductive Kind where
  | syn | synack | ack | fin | finack | nack | data
deriving DecidableEq, Repr

/-- The row of `Instr` that predicate `k` is, applied to the flags byte `f`. -/
def Kind.instr : Kind → Byte → Instr
  | .syn, f => .kSyn f
  | .synack, f => .kSynack f
  | .ack, f => .kAck f
  | .fin, f => .kFin f
  | .finack, f => .kFinack f
  | .nack, f => .kNack f
  | .data, f => .kData f

/-- Why a pattern of bits is no instruction. -/
inductive Reject where
  /-- a command word with a non-zero bit among 31:8 (R101, R103) -/
  | reservedBits (w : Word)
  /-- a command word with bits 31:8 zero and an opcode of no command (R103) -/
  | illegalOpcode (w : Word)
  /-- a flags byte that satisfies no predicate (R99: legal in a frame, its `KIND` is 0) -/
  | noKind (f : Byte)
deriving DecidableEq, Repr

/-- One row of R102. -/
structure CommandRow where
  mask : Word
  value : Word
  instr : Instr

/-- The opcode map of R102: "a decoder matches the whole word". -/
def commandRows : List CommandRow :=
  [ ⟨0xFFFFFFFF, 0x00000001, .csumCompute⟩,
    ⟨0xFFFFFFFF, 0x00000002, .csumVerify⟩,
    ⟨0xFFFFFFFF, 0x00000010, .hdrPack⟩,
    ⟨0xFFFFFFFF, 0x00000011, .hdrUnpack⟩,
    ⟨0xFFFFFFFF, 0x00000012, .pktEncode⟩,
    ⟨0xFFFFFFFF, 0x00000013, .pktDecode⟩,
    ⟨0xFFFFFFFF, 0x000000FF, .srst⟩ ]

/-- One row of R97. -/
structure FlagRow where
  mask : Byte
  value : Byte
  kind : Kind

/-- The kind table of R97. A byte may match several rows; the first match is the row `decodeFlags` names.
The two-flag row comes first, then the higher flag bit (log 4). -/
def flagRows : List FlagRow :=
  [ ⟨0x05, 0x05, .synack⟩,
    ⟨0x80, 0x80, .data⟩,
    ⟨0x40, 0x40, .nack⟩,
    ⟨0x10, 0x10, .finack⟩,
    ⟨0x08, 0x08, .fin⟩,
    ⟨0x04, 0x04, .ack⟩,
    ⟨0x01, 0x01, .syn⟩ ]

/-- Decoding of a command word (R101 to R103). -/
def decodeCommand (w : Word) : Except Reject Instr :=
  match commandRows.find? (fun r => w &&& r.mask == r.value) with
  | some r => .ok r.instr
  | none => .error (if w >>> 8 = 0 then .illegalOpcode w else .reservedBits w)

/-- All the kinds of a flags byte (R97: "not exclusive"). -/
def kindsOf (f : Byte) : List Kind :=
  (flagRows.filter (fun r => f &&& r.mask == r.value)).map FlagRow.kind

/-- The one kind a flags byte is named by (log 4). -/
def leadingKind (f : Byte) : Option Kind := (kindsOf f).head?

/-- Decoding of a flags byte to one row of the table (log 4). -/
def decodeFlags (f : Byte) : Except Reject Instr :=
  match leadingKind f with
  | some k => .ok (k.instr f)
  | none => .error (.noKind f)

/-- The two encodings of the spec, each with its bits. -/
inductive Code where
  | command (w : Word)
  | flags (f : Byte)
deriving DecidableEq, Repr

/-- Decoding, total on any bits. -/
def decode : Code → Except Reject Instr
  | .command w => decodeCommand w
  | .flags f => decodeFlags f

/-- Every row of the table that bits match: at most one command, or all the kinds of a flags byte. -/
def readings : Code → List Instr
  | .command w => match decodeCommand w with
    | .ok i => [i]
    | .error _ => []
  | .flags f => (kindsOf f).map (fun k => k.instr f)

/-- The encoding of a well-formed instruction (R102; the word of a kind row is the flags byte itself, R97). -/
def encode : Instr → Code
  | .csumCompute => .command 0x00000001
  | .csumVerify => .command 0x00000002
  | .hdrPack => .command 0x00000010
  | .hdrUnpack => .command 0x00000011
  | .pktEncode => .command 0x00000012
  | .pktDecode => .command 0x00000013
  | .srst => .command 0x000000FF
  | .kSyn f => .flags f
  | .kSynack f => .flags f
  | .kAck f => .flags f
  | .kFin f => .flags f
  | .kFinack f => .flags f
  | .kNack f => .flags f
  | .kData f => .flags f

/-- The encoding that `nbits` table bits of value `w` stand for: a row of format `FLAGS` is one byte, a row of
format `CMD` one 32-bit number (a command word has no byte order: R64, log 13). -/
def codeOfTableWord (nbits w : Nat) : Option Code :=
  if nbits ≤ 8 then
    if w < 2 ^ 8 then some (.flags (BitVec.ofNat 8 w)) else none
  else if nbits ≤ 32 then
    if w < 2 ^ 32 then some (.command (BitVec.ofNat 32 w)) else none
  else none

/-- The instruction the decoder reads from a table row's bits. -/
def decodeTableWord (nbits w : Nat) : Option Instr :=
  match codeOfTableWord nbits w with
  | some c => (decode c).toOption
  | none => none

end Sys2Proof
end

