-- ==== Sys2Proof/Machine/State.lean ====
section
/-! DEFINITION. The state of the machine as plain data (`10_state.md`), its reasons to stop, and its state after
reset. -/

namespace Sys2Proof.Machine

/-- No step of RCF ends in a fault outcome: a fault of the spec (R220) is an effect on `STATUS` after which the
machine goes on (R224), so it is a next state. The type is therefore empty (log 12). -/
inductive Fault where
deriving DecidableEq, Repr

/-- Why the model gives a step no meaning. -/
inductive Refusal where
  /-- An instruction whose meaning is not written; raised by a refused arm of `exec` only. Safe. No arm does now. -/
  | notModelled (mnemonic : String)
deriving DecidableEq, Repr

/-- The outcome of a step of this machine. -/
abbrev Out (σ : Type) := Host.Outcome σ Fault Refusal

/-- The faults RCF can raise (R220). -/
inductive FaultCode where
  | illCmd | len | plen | access
deriving DecidableEq, Repr

/-- The frame buffer: the bytes written since hard reset, each with its index, the indices strictly rising.
An index not listed was never written; what it reads as is `readByte` in `Machine/Ops.lean` (R43, log 5). -/
abbrev Memory := List Host.Cell

/-- The canonical form of a buffer: indices strictly rising. (No entry is equal to what an unlisted index reads
as, because that is no fixed value.) -/
abbrev Memory.wf (m : Memory) : Prop := m.Pairwise (fun a b => a.1 < b.1)

/-- A step of the host (R15, R61): one of the four transactions of the port, or the evaluation of a packet-kind
predicate on a flags byte (R97; it touches no port, log 3). -/
inductive HostStep where
  /-- `WR addr, v`: 4-byte write -/
  | wr (a : Addr) (v : Word)
  /-- `RD addr`: 4-byte read -/
  | rd (a : Addr)
  /-- `WRB addr, v`: 1-byte write -/
  | wrb (a : Addr) (v : Byte)
  /-- `RDB addr`: 1-byte read -/
  | rdb (a : Addr)
  /-- the host tests whether the flags byte `f` is of kind `k` -/
  | test (k : Kind) (f : Byte)
deriving DecidableEq, Repr

/-- What a host step returned to the host (R16; log 2). -/
inductive Answer where
  /-- nothing: a write, a command, no step yet -/
  | nothing
  /-- the value of a 4-byte read -/
  | word (v : Word)
  /-- the value of a 1-byte read -/
  | byte (v : Byte)
  /-- the truth value of a kind test -/
  | truth (b : Bool)
deriving DecidableEq, Repr

/-- One RCF instance (R20) with its configuration (R8, log 6), and the model's own fields: the counter of free
values (log 5), the host's coming steps (log 1) and what the last one returned (log 2). -/
structure State where
  cfg : Config
  seq : Half
  cks : Half
  flg : Byte
  plen : Half
  len : Half
  res : Half
  acc : Word
  kind : BitVec 7
  valid : Bool
  runt : Bool
  err : Bool
  ecode : BitVec 4
  buf : Memory
  draws : Nat
  inbox : List HostStep
  answer : Answer
deriving DecidableEq, Repr

/-- The state after hard reset (R50, R250): every register 0, `STATUS` 0, no byte of `BUF` written. -/
def State.reset : State where
  cfg := Config.reference
  seq := 0
  cks := 0
  flg := 0
  plen := 0
  len := 0
  res := 0
  acc := 0
  kind := 0
  valid := false
  runt := false
  err := false
  ecode := 0
  buf := []
  draws := 0
  inbox := []
  answer := .nothing

end Sys2Proof.Machine
end

