-- ==== Sys2Proof/Machine/Ops.lean ====
section
/-! DEFINITION. The shared operations: bytes of the buffer, the address map and the registers behind it, raising a
fault and leaving the faulted condition, and the checks that precede a command's effect. -/

namespace Sys2Proof.Machine

/-! ### Sizes and the buffer -/

/-- `HDR_SIZE` (R8). -/
def hdrSize : Nat := 5

/-- `BUF_SIZE = HDR_SIZE + MAX_PACKET_SIZE` (R8). -/
def State.bufSize (s : State) : Nat := hdrSize + s.cfg.maxPacketSize.val

/-- The byte last written at index `i`, if any was since hard reset. -/
def Memory.byteAt : Memory → Nat → Option Byte
  | [], _ => none
  | (a, b) :: m, i => if i = a then some b else Memory.byteAt m i

/-- `BUF[i] <- v`, keeping the canonical form. -/
def Memory.store : Memory → Nat → Byte → Memory
  | [], i, v => [(i, v)]
  | (a, b) :: m, i, v =>
    if i < a then (i, v) :: (a, b) :: m
    else if i = a then (i, v) :: m
    else (a, b) :: Memory.store m i v

/-- Consecutive stores from index `i` on. -/
def Memory.storeBytes : Memory → Nat → List Byte → Memory
  | m, _, [] => m
  | m, i, v :: vs => Memory.storeBytes (m.store i v) (i + 1) vs

/-- What an index never written reads as (R43): a free value of the read numbered `draw` (log 5). -/
def unwrittenByte (draw i : Nat) : Byte := Config.freeByte draw i

/-- `BUF[i]` in the read numbered `draw`. -/
def readByte (m : Memory) (draw i : Nat) : Byte := (m.byteAt i).getD (unwrittenByte draw i)

/-- The `n` bytes from index `i` on, "one byte at a time in ascending index, each byte once" (R76). -/
def readBytes (m : Memory) (draw : Nat) : Nat → Nat → List Byte
  | _, 0 => []
  | i, n + 1 => readByte m draw i :: readBytes m draw (i + 1) n

/-! ### The address map (R60, R62, R63) -/

/-- The eleven register slots (R62). -/
inductive Reg where
  | cmd | status | seq | cks | flg | plen | len | res | acc | kind | cap
deriving DecidableEq, Repr

/-- The register at a port address, if one is (R62). -/
def regAt (a : Addr) : Option Reg :=
  if a = 0x00 then some .cmd
  else if a = 0x04 then some .status
  else if a = 0x08 then some .seq
  else if a = 0x0C then some .cks
  else if a = 0x10 then some .flg
  else if a = 0x14 then some .plen
  else if a = 0x18 then some .len
  else if a = 0x1C then some .res
  else if a = 0x20 then some .acc
  else if a = 0x24 then some .kind
  else if a = 0x28 then some .cap
  else none

/-- The buffer index at a port address, if one is (R63). -/
def State.bufIndex (s : State) (a : Addr) : Option Nat :=
  if 0x10000 ≤ a.toNat ∧ a.toNat < 0x10000 + s.bufSize then some (a.toNat - 0x10000) else none

/-- `STATUS` as one 32-bit number: `VALID`, `RUNT`, `ERR`, a reserved 0, `ECODE`, reserved zeros (R31). -/
def State.statusWord (s : State) : Word :=
  0#24 ++ (s.ecode ++ (0#1 ++ (BitVec.ofBool s.err ++ (BitVec.ofBool s.runt ++ BitVec.ofBool s.valid))))

/-- `CAP` as one 32-bit number: `MAX_PACKET_SIZE` in 15:0, `ODD_PAD` in bit 16 (R41). -/
def State.capWord (s : State) : Word :=
  0#15 ++ (BitVec.ofBool (s.cfg.oddPad == .rfcHigh) ++ BitVec.ofNat 16 s.cfg.maxPacketSize.val)

/-- The value a register with `RD` access reads, zero-extended to 32 bits (R62, R64); `CMD` has none (R40). -/
def State.readReg (s : State) : Reg → Option Word
  | .cmd => none
  | .status => some s.statusWord
  | .seq => some (s.seq.setWidth 32)
  | .cks => some (s.cks.setWidth 32)
  | .flg => some (s.flg.setWidth 32)
  | .plen => some (s.plen.setWidth 32)
  | .len => some (s.len.setWidth 32)
  | .res => some (s.res.setWidth 32)
  | .acc => some s.acc
  | .kind => some (s.kind.setWidth 32)
  | .cap => some s.capWord

/-- The effect of `WR` on a read-write register: the low bits of the bus value are stored (R62, R64). The
read-only registers have none, and a write to `CMD` is a command, not a store (R40). -/
def State.writeReg (s : State) (v : Word) : Reg → Option State
  | .seq => some { s with seq := v.setWidth 16 }
  | .cks => some { s with cks := v.setWidth 16 }
  | .flg => some { s with flg := v.setWidth 8 }
  | .plen => some { s with plen := v.setWidth 16 }
  | .len => some { s with len := v.setWidth 16 }
  | .cmd => none
  | .status => none
  | .res => none
  | .acc => none
  | .kind => none
  | .cap => none

/-! ### Faults (`60_exceptions.md`) -/

/-- The code of a fault (R220). -/
def FaultCode.code : FaultCode → BitVec 4
  | .illCmd => 1
  | .len => 2
  | .plen => 3
  | .access => 4

/-- `raise Fault(c)`, the whole of fault entry (R224). -/
def raise (c : FaultCode) (s : State) : State :=
  if s.err then s else { s with err := true, ecode := c.code }

/-- The return from the faulted condition (R232): every register to its reset value, `BUF` unchanged (R180). -/
def softReset (s : State) : State :=
  { s with
    seq := 0, cks := 0, flg := 0, plen := 0, len := 0, res := 0, acc := 0, kind := 0,
    valid := false, runt := false, err := false, ecode := 0 }

/-- "if STATUS.ERR == 1: refused, no effect" (R35): the gate before every command but `SRST`. -/
def unlessFaulted (s : State) (go : Out State) : Out State :=
  if s.err then .next s else go

/-- "if LEN > BUF_SIZE: raise Fault(E_LEN)" (R221). -/
def checkLen (s : State) (go : Out State) : Out State :=
  if s.bufSize < s.len.toNat then .next (raise .len s) else go

/-- "if PLEN > MAX_PACKET_SIZE: raise Fault(E_PLEN)" (R222). -/
def checkPlen (s : State) (go : Out State) : Out State :=
  if s.cfg.maxPacketSize.val < s.plen.toNat then .next (raise .plen s) else go

/-! ### Answers to the host -/

/-- The state with what the host step returned (log 2). -/
def State.answering (s : State) (a : Answer) : State := { s with answer := a }

end Sys2Proof.Machine
end

