-- ==== Sys2Proof/Machine/Operands.lean ====
section
/-! DEFINITION. The operands of the commands: byte strings in the buffer, the header fields and their big-endian
assembly (`30_encoding.md` R90 to R94, `20_memory.md` R70). -/

namespace Sys2Proof.Machine

/-- `v[15:8]`. -/
def hiByte (v : Half) : Byte := v.extractLsb' 8 8

/-- `v[7:0]`. -/
def loByte (v : Half) : Byte := v.extractLsb' 0 8

/-- `hi * 256 + lo`: the number two consecutive bytes stand for in network byte order (R11, R94). -/
def be16 (hi lo : Byte) : Half := hi ++ lo

/-- The five header bytes of a frame (R90, R94). -/
def headerBytes (seq cks : Half) (flg : Byte) : List Byte :=
  [hiByte seq, loByte seq, hiByte cks, loByte cks, flg]

/-- `BUF[0 .. LEN-1]` in the read numbered `draw`. -/
def frameBytes (s : State) (draw : Nat) : List Byte := readBytes s.buf draw 0 s.len.toNat

/-- `BUF[5 .. 4+PLEN]` in the read numbered `draw`. -/
def payloadBytes (s : State) (draw : Nat) : List Byte := readBytes s.buf draw hdrSize s.plen.toNat

/-- `BUF[0 .. 4]` written with a header, `LEN <- 5 + PLEN` (R150). -/
def putHeader (s : State) (cks : Half) : State :=
  { s with
    buf := s.buf.storeBytes 0 (headerBytes s.seq cks s.flg)
    len := BitVec.ofNat 16 (hdrSize + s.plen.toNat) }

/-- The header fields taken out of `BUF[0 .. 4]`, read in the read numbered `draw`, and `PLEN <- LEN - 5` (R152). -/
def takeHeader (s : State) (draw : Nat) : State :=
  { s with
    seq := be16 (readByte s.buf draw 0) (readByte s.buf draw 1)
    cks := be16 (readByte s.buf draw 2) (readByte s.buf draw 3)
    flg := readByte s.buf draw 4
    plen := BitVec.ofNat 16 (s.len.toNat - hdrSize) }

/-- The counter of free values after `n` reads of the buffer (log 5). -/
def State.drawn (s : State) (n : Nat) : State := { s with draws := s.draws + n }

end Sys2Proof.Machine
end

