-- ==== Sys2Proof/Machine/Flags.lean ====
section
/-! DEFINITION. Everything computed into or from flag bits: the flags byte and its kind predicates
(`30_encoding.md` R95 to R99, `41_framer.md` R170 to R178), the result group (`10_state.md` R33) and the runt test. -/

namespace Sys2Proof.Machine

/-! ### The flags byte (R95) -/

def flagSyn : Byte := 0x01
def flagSynAck : Byte := 0x02
def flagAck : Byte := 0x04
def flagFin : Byte := 0x08
def flagFinAck : Byte := 0x10
def flagRst : Byte := 0x20
def flagNack : Byte := 0x40
def flagData : Byte := 0x80

/-- Every flag of `mask` is set in `f`: "each bit is tested on its own with its mask" (R96). -/
def hasFlags (f mask : Byte) : Bool := f &&& mask == mask

/-- `K_SYN` (R171). -/
def isSyn (f : Byte) : Bool := hasFlags f flagSyn

/-- `K_SYNACK` (R172): both SYN and ACK, not the reserved flag `SYN_ACK`. -/
def isSynack (f : Byte) : Bool := hasFlags f (flagSyn ||| flagAck)

/-- `K_ACK` (R173). -/
def isAck (f : Byte) : Bool := hasFlags f flagAck

/-- `K_FIN` (R174). -/
def isFin (f : Byte) : Bool := hasFlags f flagFin

/-- `K_FINACK` (R175): the single flag `FIN_ACK`. -/
def isFinack (f : Byte) : Bool := hasFlags f flagFinAck

/-- `K_NACK` (R176). -/
def isNack (f : Byte) : Bool := hasFlags f flagNack

/-- `K_DATA` (R177). -/
def isData (f : Byte) : Bool := hasFlags f flagData

/-- `kind(f)`, bit 0 `K_SYN` up to bit 6 `K_DATA` (R170). -/
def kindBits (f : Byte) : BitVec 7 :=
  BitVec.ofBool (isData f) ++ (BitVec.ofBool (isNack f) ++ (BitVec.ofBool (isFinack f) ++
    (BitVec.ofBool (isFin f) ++ (BitVec.ofBool (isAck f) ++
      (BitVec.ofBool (isSynack f) ++ BitVec.ofBool (isSyn f))))))

/-- The bit of `KIND` that a predicate has (R97). -/
def kindBit : Kind → Nat
  | .syn => 0
  | .synack => 1
  | .ack => 2
  | .fin => 3
  | .finack => 4
  | .nack => 5
  | .data => 6

/-! ### The result group (R33) -/

/-- The result group `{VALID, RUNT, KIND}` that an executed command leaves. -/
def setResults (valid runt : Bool) (kind : BitVec 7) (s : State) : State :=
  { s with valid := valid, runt := runt, kind := kind }

/-- The result group of a command that gives none of it a value. -/
def clearResults (s : State) : State := setResults false false 0 s

/-- "if LEN < 5: RUNT <- 1, VALID <- 0, KIND <- 0, nothing else changes" (R152, R158). -/
def unlessRunt (s : State) (go : Out State) : Out State :=
  if s.len.toNat < hdrSize then .next (setResults false true 0 s) else go

end Sys2Proof.Machine
end

