-- ==== Sys2Proof/Machine/Arith.lean ====
section
/-! DEFINITION. The arithmetic of the checksum (`40_checksum.md` R130 to R132): exact natural numbers, narrowed only
where a register takes the result. -/

namespace Sys2Proof.Machine

/-- The trailing odd byte as a word (R130, `tail`). -/
def oddTail (pad : OddPad) (b : Byte) : Nat :=
  match pad with
  | .zext => b.toNat
  | .rfcHigh => b.toNat * 256

/-- `wsum(b)`: the sum of the big-endian 16-bit words of a byte string (R130). -/
def wsum (pad : OddPad) : List Byte → Nat
  | [] => 0
  | [b] => oddTail pad b
  | a :: b :: rest => a.toNat * 256 + b.toNat + wsum pad rest

/-- `fuel` passes at most of R131's loop "while v >= 0x10000: v <- (v mod 0x10000) + (v >> 16)". -/
def foldLoop : Nat → Nat → Nat
  | 0, v => v
  | fuel + 1, v => if 0x10000 ≤ v then foldLoop fuel (v % 0x10000 + v >>> 16) else v

/-- `fold(v)` for `v` below 2^32, where the loop runs at most twice (R131, log 7). -/
def fold (v : Nat) : Nat := foldLoop 2 v

/-- `compute(b)` (R132). -/
def compute (pad : OddPad) (b : List Byte) : Nat := 0xFFFF - fold (wsum pad b)

/-- `verify(b, c)` (R132). -/
def verify (pad : OddPad) (b : List Byte) (c : Half) : Bool := fold (wsum pad b + c.toNat) == 0xFFFF

/-- The registers that show the last checksum arithmetic: the unfolded sum in `ACC`, its 16-bit outcome in `RES`
(R28, R29). -/
def showSum (sum outcome : Nat) (s : State) : State :=
  { s with acc := BitVec.ofNat 32 sum, res := BitVec.ofNat 16 outcome }

end Sys2Proof.Machine
end

