-- ==== Sys2Proof/Machine/Checksum.lean ====
section
/-! DEFINITION. The checksum family (`40_checksum.md`): `CSUM.COMPUTE` and `CSUM.VERIFY`. -/

namespace Sys2Proof.Machine

/-- `CSUM.COMPUTE` (R134). -/
def execCsumCompute (s : State) : Out State :=
  unlessFaulted s <| checkLen s <|
    let b := frameBytes s s.draws
    .next (clearResults (showSum (wsum s.cfg.oddPad b) (compute s.cfg.oddPad b) (s.drawn 1)))

/-- `CSUM.VERIFY` (R136). -/
def execCsumVerify (s : State) : Out State :=
  unlessFaulted s <| checkLen s <|
    let b := frameBytes s s.draws
    let t := wsum s.cfg.oddPad b + s.cks.toNat
    .next (setResults (verify s.cfg.oddPad b s.cks) false 0 (showSum t (fold t) (s.drawn 1)))

end Sys2Proof.Machine
end

