-- ==== Sys2Proof/Machine/Framer.lean ====
section
/-! DEFINITION. The framer family (`41_framer.md`): `HDR.PACK`, `HDR.UNPACK`, `PKT.ENCODE`, `PKT.DECODE`. -/

namespace Sys2Proof.Machine

/-- `HDR.PACK` (R150). -/
def execHdrPack (s : State) : Out State :=
  unlessFaulted s <| checkPlen s <| .next (clearResults (putHeader s s.cks))

/-- `HDR.UNPACK` (R152). The five bytes are read in one read of the buffer. -/
def execHdrUnpack (s : State) : Out State :=
  unlessFaulted s <| checkLen s <| unlessRunt s <|
    .next (clearResults ((takeHeader s s.draws).drawn 1))

/-- `PKT.ENCODE` (R155). The payload is read in one read of the buffer. -/
def execPktEncode (s : State) : Out State :=
  unlessFaulted s <| checkPlen s <|
    let f0 := headerBytes s.seq 0 s.flg ++ payloadBytes s s.draws
    let c := compute s.cfg.oddPad f0
    let t := putHeader s (BitVec.ofNat 16 c)
    .next (clearResults (showSum (wsum s.cfg.oddPad f0) c { t.drawn 1 with cks := BitVec.ofNat 16 c }))

/-- `PKT.DECODE` (R158). It names the buffer's bytes three times, and each is a read of its own (R43: two reads of
one unwritten byte need not agree): the whole frame for the sum, the header fields, the flags of `KIND` (log 5). -/
def execPktDecode (s : State) : Out State :=
  unlessFaulted s <| checkLen s <| unlessRunt s <|
    let t := wsum s.cfg.oddPad (frameBytes s s.draws)
    let ok := fold t == 0xFFFF
    let k := kindBits (readByte s.buf (s.draws + 2) 4)
    .next (setResults ok false (if ok then k else 0)
      (showSum t (fold t) ((takeHeader s (s.draws + 1)).drawn 3)))

end Sys2Proof.Machine
end

