-- ==== Sys2Proof/Machine/System.lean ====
section
/-! DEFINITION. The system family (`42_system.md`): `SRST`. -/

namespace Sys2Proof.Machine

/-- `SRST` (R180): executes whatever `ERR` is, and cannot fault. -/
def execSrst (s : State) : Out State := .next (softReset s)

end Sys2Proof.Machine
end

