-- ==== Sys2Proof/Machine/Kinds.lean ====
section
/-! DEFINITION. The packet-kind predicates (`41_framer.md` R170 to R177) as steps of the host: each is a pure function
of a flags byte, so it changes no state of the block and answers a truth value (log 3). -/

namespace Sys2Proof.Machine

/-- `K_SYN` (R171). -/
def execKSyn (f : Byte) (s : State) : Out State := .next (s.answering (.truth (isSyn f)))

/-- `K_SYNACK` (R172). -/
def execKSynack (f : Byte) (s : State) : Out State := .next (s.answering (.truth (isSynack f)))

/-- `K_ACK` (R173). -/
def execKAck (f : Byte) (s : State) : Out State := .next (s.answering (.truth (isAck f)))

/-- `K_FIN` (R174). -/
def execKFin (f : Byte) (s : State) : Out State := .next (s.answering (.truth (isFin f)))

/-- `K_FINACK` (R175). -/
def execKFinack (f : Byte) (s : State) : Out State := .next (s.answering (.truth (isFinack f)))

/-- `K_NACK` (R176). -/
def execKNack (f : Byte) (s : State) : Out State := .next (s.answering (.truth (isNack f)))

/-- `K_DATA` (R177). -/
def execKData (f : Byte) (s : State) : Out State := .next (s.answering (.truth (isData f)))

end Sys2Proof.Machine
end

