-- ==== Sys2Proof/Machine/Dispatch.lean ====
section
/-! DEFINITION. Which meaning each instruction has: one arm per constructor of `Instr`. -/

namespace Sys2Proof.Machine

def exec (i : Instr) (s : State) : Host.Outcome State Fault Refusal :=
  match i with
  | .csumCompute => Sys2Proof.Machine.execCsumCompute s
  | .csumVerify => Sys2Proof.Machine.execCsumVerify s
  | .hdrPack => Sys2Proof.Machine.execHdrPack s
  | .hdrUnpack => Sys2Proof.Machine.execHdrUnpack s
  | .pktEncode => Sys2Proof.Machine.execPktEncode s
  | .pktDecode => Sys2Proof.Machine.execPktDecode s
  | .srst => Sys2Proof.Machine.execSrst s
  | .kSyn f => Sys2Proof.Machine.execKSyn f s
  | .kSynack f => Sys2Proof.Machine.execKSynack f s
  | .kAck f => Sys2Proof.Machine.execKAck f s
  | .kFin f => Sys2Proof.Machine.execKFin f s
  | .kFinack f => Sys2Proof.Machine.execKFinack f s
  | .kNack f => Sys2Proof.Machine.execKNack f s
  | .kData f => Sys2Proof.Machine.execKData f s

end Sys2Proof.Machine
end

