-- ==== Sys2Proof/Machine/Port.lean ====
section
/-! DEFINITION. The steps of the host (`42_system.md` R181 to R184; `30_encoding.md` R105, R106): the four transactions of
the port, the kind test, and the pseudo-instructions as lists of steps. -/

namespace Sys2Proof.Machine

/-- A transaction the map does not permit, and what it answers (R66, R223). -/
def violation (s : State) (a : Answer) : State := (raise .access s).answering a

/-- The issue of a command by a write of `v` to `CMD`, with `ERR` = 0 (R40, R103). -/
def issueCommand (v : Word) (s : State) : Out State :=
  match decodeCommand v with
  | .ok i => exec i s
  | .error _ => .next (raise .illCmd s)

/-- `WR addr, v` with `ERR` = 0 to the register `r`: a command by `CMD`, else a store (R181). -/
def writeSlot (r : Reg) (v : Word) (s : State) : Out State :=
  if r = .cmd then issueCommand v s
  else
    match s.writeReg v r with
    | some t => .next t
    | none => .next (violation s .nothing)

/-- `WR addr, v` (R181). -/
def hostWrite (a : Addr) (v : Word) (s : State) : Out State :=
  if s.err then
    if a = 0x00 ∧ v = 0x000000FF then exec .srst s else .next s
  else
    match regAt a with
    | some r => writeSlot r v s
    | none => .next (violation s .nothing)

/-- `RD addr` (R182). -/
def hostRead (a : Addr) (s : State) : Out State :=
  match (regAt a).bind s.readReg with
  | some v => .next (s.answering (.word v))
  | none => .next (violation s (.word 0))

/-- `WRB addr, v` (R183). -/
def hostWriteByte (a : Addr) (v : Byte) (s : State) : Out State :=
  if s.err then .next s
  else
    match s.bufIndex a with
    | some i => .next { s with buf := s.buf.store i v }
    | none => .next (violation s .nothing)

/-- `RDB addr` (R184). -/
def hostReadByte (a : Addr) (s : State) : Out State :=
  match s.bufIndex a with
  | some i => .next ((s.drawn 1).answering (.byte (readByte s.buf s.draws i)))
  | none => .next (violation s (.byte 0))

/-- One step of the host performed whole (R15, R75). -/
def perform (h : HostStep) (s : State) : Out State :=
  match h with
  | .wr a v => hostWrite a v s
  | .rd a => hostRead a s
  | .wrb a v => hostWriteByte a v s
  | .rdb a => hostReadByte a s
  | .test k f => exec (k.instr f) s

/-- The host takes its next step: it leaves the inbox, and no answer stands until it gives one (log 1, log 2). -/
def State.taking (s : State) (rest : List HostStep) : State := { s with inbox := rest, answer := .nothing }

/-! ### Transaction syntax (R105, R106) -/

/-- The port address of buffer byte `i` (R63). -/
def bufAddr (i : Nat) : Addr := BitVec.ofNat 17 (0x10000 + i)

/-- The port address of a register (R62). -/
def Reg.addr : Reg → Addr
  | .cmd => 0x00
  | .status => 0x04
  | .seq => 0x08
  | .cks => 0x0C
  | .flg => 0x10
  | .plen => 0x14
  | .len => 0x18
  | .res => 0x1C
  | .acc => 0x20
  | .kind => 0x24
  | .cap => 0x28

/-- `LOAD i, b0 b1 ... bk` (R106). -/
def hostLoad : Nat → List Byte → List HostStep
  | _, [] => []
  | i, b :: bs => .wrb (bufAddr i) b :: hostLoad (i + 1) bs

/-- `FRAME b0 b1 ... bk` (R106). -/
def hostFrame (bs : List Byte) : List HostStep :=
  hostLoad 0 bs ++ [.wr Reg.len.addr (BitVec.ofNat 32 bs.length)]

/-- `PAYLOAD b0 ... bk` (R106). -/
def hostPayload (bs : List Byte) : List HostStep :=
  hostLoad hdrSize bs ++ [.wr Reg.plen.addr (BitVec.ofNat 32 bs.length)]

/-- `DUMP n` (R106). -/
def hostDump (n : Nat) : List HostStep := (List.range n).map (fun i => .rdb (bufAddr i))

end Sys2Proof.Machine
end

