-- ==== Sys2Proof/Machine/Step.lean ====
section
/-! DEFINITION. One step of the machine, and how an instruction comes to be the next one it runs. -/

namespace Sys2Proof.Machine

/-- One step (R15): the first step of the host's inbox, performed whole. With an empty inbox the block "does nothing by
itself" (R252). -/
def step (s : State) : Host.Outcome State Fault Refusal :=
  match s.inbox with
  | [] => .next s
  | h :: rest => perform h (s.taking rest)

/-- The host step that issues an encoding: a command word is written to `CMD` (R105); a flags byte is tested for the kind
it is named by (log 3, log 4), and a flags byte of no kind issues no step. -/
def issue : Code → List HostStep
  | .command w => [.wr Reg.cmd.addr w]
  | .flags f =>
    match leadingKind f with
    | some k => [.test k f]
    | none => []

/-- The state whose very next step runs the instruction of `nbits` table bits `w` (log 1). -/
def State.withFetchWord (s : State) (nbits w : Nat) : State :=
  match codeOfTableWord nbits w with
  | some c => { s with inbox := issue c ++ s.inbox }
  | none => s

end Sys2Proof.Machine
end

