-- ==== Sys2Proof/Safety.lean ====
section
/-! DEFINITION. What counts as a safe run, in the terms the statements use: the invariant of the block, a run without
misuse, what a buffer holds, and the host's tests on a decoded frame. -/

namespace Sys2Proof.Machine

/-- The bytes `b` were written at the indices from `start` on. -/
def Memory.HoldsAt (m : Memory) (start : Nat) (b : List Byte) : Prop :=
  ∀ i (h : i < b.length), m.byteAt (start + i) = some b[i]

/-- The bytes `b` are what the indices from `start` on may read as: each written byte as it was written, each unwritten
byte as any value (R43). -/
def Memory.ReadsAs (m : Memory) (start : Nat) (b : List Byte) : Prop :=
  ∀ i (h : i < b.length) v, m.byteAt (start + i) = some v → b[i] = v

/-- A run that ends here has not misused the block: "every claim about a host program takes ERR = 0 at the end as a
premise" (R225). -/
def State.Clean (s : State) : Prop := s.err = false

/-- What holds of the block from reset on. -/
structure State.Inv (s : State) : Prop where
  /-- equal buffers are equal data -/
  canonical : s.buf.wf
  /-- no byte beyond `BUF` exists (R42) -/
  inBuffer : ∀ c ∈ s.buf, c.1 < s.bufSize
  /-- `ECODE` is 0 exactly when `ERR` is (R31) -/
  errCode : s.err = false ↔ s.ecode = 0
  /-- `ECODE` never holds a reserved value (R220) -/
  codeLegal : s.ecode.toNat ≤ 4
  /-- a valid verdict stands with the all-ones sum it was given for (R28, R31) -/
  verdict : s.valid = true → s.res = 0xFFFF ∧ fold s.acc.toNat = 0xFFFF
  /-- `RES` is the folded `ACC` or its complement (R28, R29) -/
  outcome : s.res.toNat = fold s.acc.toNat ∨ s.res.toNat = 0xFFFF - fold s.acc.toNat
  /-- a runt has no verdict (R231) -/
  noRuntVerdict : s.runt = true → s.valid = false
  /-- "no kind is ever reported for a frame that failed validation" (R30) -/
  kindValid : s.kind ≠ 0 → s.valid = true
  /-- `KIND` is the kind vector of some flags byte, or 0 (R30, R170) -/
  kindOfFlags : ∃ f : Byte, s.kind = kindBits f
  /-- the bound of the running sum (R29, R133) -/
  accBound : s.acc.toNat ≤ 0x80007F00

/-- The host's test of a decoded frame: "accept when `VALID` = 1 and" the kind's bit of `KIND` is 1 (R200 to R204). -/
def State.accepts (s : State) (k : Kind) : Bool := s.valid && s.kind.getLsbD (kindBit k)

end Sys2Proof.Machine
end

