-- ==== Sys2Proof/Certificates/Slice0/Obligations.lean ====
section
/-! DEFINITION. The statements for the provers. A statement that speaks of the counter of free values (`draws`) leaves its
new value open, and one that speaks of unwritten buffer bytes holds whatever they read as. -/

open Sys2Proof Sys2Proof.Machine

namespace Sys2Proof.Certificates

/-! ### The spec's tables, as the statements quote them -/

/-- R102: the seven command words. -/
def commandTable : List (Word × Instr) :=
  [(0x00000001, .csumCompute), (0x00000002, .csumVerify), (0x00000010, .hdrPack), (0x00000011, .hdrUnpack),
   (0x00000012, .pktEncode), (0x00000013, .pktDecode), (0x000000FF, .srst)]

/-- The readable registers of R62, each at its address with the number it reads as (R31 for `STATUS`, R41 for `CAP`). -/
def readable (s : State) : List (Addr × Nat) :=
  [(0x04, s.valid.toNat + 2 * s.runt.toNat + 4 * s.err.toNat + 16 * s.ecode.toNat), (0x08, s.seq.toNat),
   (0x0C, s.cks.toNat), (0x10, s.flg.toNat), (0x14, s.plen.toNat), (0x18, s.len.toNat), (0x1C, s.res.toNat),
   (0x20, s.acc.toNat), (0x24, s.kind.toNat),
   (0x28, s.cfg.maxPacketSize.val + (if s.cfg.oddPad = .rfcHigh then 0x10000 else 0))]

/-- The addresses with `WR` access of R62: `CMD`, `SEQ`, `CKS`, `FLG`, `PLEN`, `LEN`. -/
def writable : List Addr := [0x00, 0x08, 0x0C, 0x10, 0x14, 0x18]

/-- A buffer address (R63). -/
def inBuffer (s : State) (a : Addr) : Prop :=
  0x10000 ≤ a.toNat ∧ a.toNat < 0x10000 + (5 + s.cfg.maxPacketSize.val)

/-- The host steps that R62 and R63 permit. A kind test is no transaction of the port. -/
def permitted (s : State) : HostStep → Prop
  | .wr a _ => a ∈ writable
  | .rd a => a ∈ (readable s).map Prod.fst
  | .wrb a _ => inBuffer s a
  | .rdb a => inBuffer s a
  | .test _ _ => True

/-- What a violating step answers: a read 0, a write nothing (R66). -/
def zeroAnswer : HostStep → Answer
  | .rd _ => .word 0
  | .rdb _ => .byte 0
  | .wr _ _ => .nothing
  | .wrb _ _ => .nothing
  | .test _ _ => .nothing

/-- The cause of each fault by its code (R220). -/
def causes (s : State) (h : HostStep) (code : BitVec 4) : Prop :=
  (code = 4 ∧ ¬ permitted s h) ∨
  ∃ w, h = .wr 0x00 w ∧
    ((code = 1 ∧ ∀ i, (w, i) ∉ commandTable) ∨
     (code = 2 ∧ w ∈ [(0x00000001 : Word), 0x00000002, 0x00000011, 0x00000013] ∧
        5 + s.cfg.maxPacketSize.val < s.len.toNat) ∨
     (code = 3 ∧ w ∈ [(0x00000010 : Word), 0x00000012] ∧ s.cfg.maxPacketSize.val < s.plen.toNat))

/-- The host step that writes the `SRST` word to `CMD` (R35). -/
def isResetWrite (h : HostStep) : Prop := h = .wr 0x00 0x000000FF

/-- R133's implementation with a 16-bit register: "for each word w does a <- a + w; if a >= 0x10000 then
a <- (a mod 0x10000) + 1". -/
def addEndAround (a w : Nat) : Nat := if 0x10000 ≤ a + w then (a + w) % 0x10000 + 1 else a + w

/-- R133's implementation run over the words of a byte string, from the register value `a`. -/
def endAround (pad : OddPad) : Nat → List Byte → Nat
  | a, [] => a
  | a, [b] => addEndAround a (match pad with | .zext => b.toNat | .rfcHigh => b.toNat * 256)
  | a, b :: c :: rest => endAround pad (addEndAround a (b.toNat * 256 + c.toNat)) rest

/-- Word `k` of a byte string, as a pair of its bytes exchanged with word `j` (R139). -/
def swapWords (x m y : List Byte) (a b c d : Byte) : List Byte × List Byte :=
  (x ++ [a, b] ++ m ++ [c, d] ++ y, x ++ [c, d] ++ m ++ [a, b] ++ y)

/-- The registers that no checksum command writes, and the fields of the model beside them. -/
def sameButResults (s t : State) : Prop :=
  t.cfg = s.cfg ∧ t.seq = s.seq ∧ t.cks = s.cks ∧ t.flg = s.flg ∧ t.plen = s.plen ∧ t.len = s.len ∧
    t.inbox = s.inbox ∧ t.answer = s.answer

/-- Every byte of the buffer reads as before, in every read. -/
def sameBuffer (s t : State) : Prop := ∀ draw a, readByte t.buf draw a = readByte s.buf draw a

end Sys2Proof.Certificates

open Sys2Proof.Certificates

/-! ### Encodings -/

/-- R102: "A decoder matches the whole word". -/
def Obligations.CommandWordsDecodeAsTheOpcodeMap : Prop :=
  ∀ (w : Word) (i : Instr), decodeCommand w = .ok i ↔ (w, i) ∈ commandTable

/-- A few words written out from R102 and R97. That `0x05` is named by `K_SYNACK` and `0x85` too is the model's choice
(log 4). -/
def Obligations.SpecWordsDecode : Prop :=
  decodeTableWord 32 0x00000001 = some .csumCompute ∧ decodeTableWord 32 0x00000013 = some .pktDecode ∧
    decodeTableWord 32 0x000000FF = some .srst ∧ decodeTableWord 32 0x000001FF = none ∧
    decodeTableWord 32 0x00000000 = none ∧ decodeTableWord 8 0x01 = some (.kSyn 0x01) ∧
    decodeTableWord 8 0x05 = some (.kSynack 0x05) ∧ decodeTableWord 8 0x85 = some (.kSynack 0x85) ∧
    decodeTableWord 8 0x80 = some (.kData 0x80) ∧ decodeTableWord 8 0x22 = none

/-- Decoding and encoding agree (R97, R102). The readings of bits are exactly the well-formed instructions they encode;
a command word decodes to its one reading, and a flags byte to one of its kinds (which one is the model's choice,
log 4), unless it has none. -/
def Obligations.DecodeEncodeAgree : Prop :=
  (∀ (c : Code) (i : Instr), i ∈ readings c ↔ (i.WellFormed = true ∧ encode i = c)) ∧
  (∀ (w : Word) (i : Instr), i.WellFormed = true → encode i = .command w → decode (encode i) = .ok i) ∧
  (∀ (c : Code) (i : Instr), decode c = .ok i → i ∈ readings c) ∧
  (∀ (c : Code) (i : Instr), i ∈ readings c → ∃ j, decode c = .ok j ∧ encode j = encode i)

/-- A step runs the decoded instruction: a command word written to `CMD` (R40, R181) and a kind test (log 3), and any
word of the opcode table that the decoder accepts (log 1). -/
def Obligations.StepRunsTheDecodedInstruction : Prop :=
  (∀ (s : State) (w : Word) (i : Instr) (rest : List HostStep), s.inbox = .wr 0x00 w :: rest →
    decodeCommand w = .ok i → step s = exec i { s with inbox := rest, answer := .nothing }) ∧
  (∀ (s : State) (k : Kind) (f : Byte) (rest : List HostStep), s.inbox = .test k f :: rest →
    step s = exec (k.instr f) { s with inbox := rest, answer := .nothing }) ∧
  (∀ (s : State) (nbits w : Nat) (i : Instr), decodeTableWord nbits w = some i →
    step (s.withFetchWord nbits w) = exec i { s with answer := .nothing })

/-! ### The arithmetic (`40_checksum.md`) -/

/-- R130. -/
def Obligations.WsumIsTheSumOfBigEndianWords : Prop :=
  ∀ (pad : OddPad) (b : List Byte),
    wsum pad b =
      ((List.range (b.length / 2)).map
        (fun k => (b.getD (2 * k) 0).toNat * 256 + (b.getD (2 * k + 1) 0).toNat)).sum +
      (if b.length % 2 = 0 then 0
       else match pad with
        | .zext => (b.getD (b.length - 1) 0).toNat
        | .rfcHigh => (b.getD (b.length - 1) 0).toNat * 256)

/-- R131: the loop, that two passes suffice, and the closed form the spec derives from it. -/
def Obligations.FoldIsTheEndAroundFold : Prop :=
  ∀ v : Nat, v < 2 ^ 32 →
    (v < 0x10000 → fold v = v) ∧ (0x10000 ≤ v → fold v = fold (v % 0x10000 + v / 0x10000)) ∧
    fold v = (if v = 0 then 0 else (v - 1) % 65535 + 1) ∧ fold v % 65535 = v % 65535 ∧
    (fold v = 0xFFFF ↔ 0 < v ∧ 65535 ∣ v) ∧ (fold v = 0 ↔ v = 0)

/-- R133: the bounds that keep the running sum in 32 bits. -/
def Obligations.RunningSumStaysBelowItsBound : Prop :=
  ∀ (pad : OddPad) (b : List Byte) (c : Half), b.length ≤ 65535 →
    wsum pad b ≤ 0x7FFF7F01 ∧ (pad = .zext → wsum pad b ≤ 0x7FFE8100) ∧ wsum pad b + c.toNat ≤ 0x80007F00

/-- R133: the end-around-carry implementation ends with the folded sum. -/
def Obligations.EndAroundCarryRefinesTheFoldedSum : Prop :=
  ∀ (pad : OddPad) (b : List Byte), b.length ≤ 65535 → endAround pad 0 b = fold (wsum pad b)

/-- R135: "For all byte sequences P (including empty and odd-length), verify(P, compute(P)) is true." -/
def Obligations.VerifyAcceptsTheComputedChecksum : Prop :=
  ∀ (pad : OddPad) (b : List Byte), b.length ≤ 65535 → verify pad b (BitVec.ofNat 16 (compute pad b)) = true

/-- R137: a frame with its checksum in place sums to the zeroed frame's sum plus the checksum. -/
def Obligations.ChecksumInPlaceAddsItself : Prop :=
  ∀ (pad : OddPad) (b0 b1 b4 : Byte) (c : Half) (p : List Byte), p.length ≤ 65530 →
    wsum pad (headerBytes (be16 b0 b1) c b4 ++ p) = wsum pad (headerBytes (be16 b0 b1) 0 b4 ++ p) + c.toNat ∧
    (verify pad (headerBytes (be16 b0 b1) 0 b4 ++ p) c = true ↔
      fold (wsum pad (headerBytes (be16 b0 b1) c b4 ++ p)) = 0xFFFF)

/-- R138: which checksums a byte string verifies with; the two zeros. -/
def Obligations.VerifyAcceptsBothZeros : Prop :=
  ∀ (pad : OddPad) (b : List Byte) (c : Half), b.length ≤ 65535 →
    (wsum pad b = 0 → compute pad b = 0xFFFF ∧ (verify pad b c = true ↔ c = 0xFFFF)) ∧
    (0 < wsum pad b → 65535 ∣ wsum pad b → compute pad b = 0 ∧ (verify pad b c = true ↔ c = 0 ∨ c = 0xFFFF)) ∧
    (¬ 65535 ∣ wsum pad b → (verify pad b c = true ↔ c.toNat = compute pad b))

/-- R139: exchanging two aligned 16-bit words changes neither the sum nor any verdict (the known blind spot, to be
preserved). -/
def Obligations.WordSwapIsNotDetected : Prop :=
  ∀ (pad : OddPad) (x m y : List Byte) (a b c d : Byte), x.length % 2 = 0 → m.length % 2 = 0 →
    wsum pad (swapWords x m y a b c d).1 = wsum pad (swapWords x m y a b c d).2 ∧
    ∀ k : Half, verify pad (swapWords x m y a b c d).1 k = verify pad (swapWords x m y a b c d).2 k

/-- R140: every single-bit flip of a byte string or of its checksum is detected. -/
def Obligations.SingleBitFlipsAreDetected : Prop :=
  ∀ (pad : OddPad) (b : List Byte) (c : Half), b.length ≤ 65535 → verify pad b c = true →
    (∀ (k : Nat) (h : k < b.length) (j : Nat), j < 8 → verify pad (b.set k (b[k] ^^^ (1#8 <<< j))) c = false) ∧
    (∀ j : Nat, j < 16 → verify pad b (c ^^^ (1#16 <<< j)) = false)

/-! ### The commands: encoding, gate, fault and effect -/

/-- R134. An unwritten byte is summed as some byte (R43), and the counter of free values may advance (log 5). -/
def Obligations.CsumComputeMeaning : Prop :=
  decodeCommand 0x00000001 = .ok .csumCompute ∧
  ∀ s : State,
    (s.err = true → exec .csumCompute s = .next s) ∧
    (s.err = false → s.bufSize < s.len.toNat →
      exec .csumCompute s = .next { s with err := true, ecode := 2 }) ∧
    (s.err = false → s.len.toNat ≤ s.bufSize →
      ∃ (b : List Byte) (acc : Word) (res : Half) (d : Nat),
        b.length = s.len.toNat ∧ s.buf.ReadsAs 0 b ∧ acc.toNat = wsum s.cfg.oddPad b ∧
        res.toNat = 0xFFFF - fold (wsum s.cfg.oddPad b) ∧
        exec .csumCompute s = .next
          { s with acc := acc, res := res, valid := false, runt := false, kind := 0, draws := d })

/-- R136. An unwritten byte is summed as some byte (R43), and the counter of free values may advance (log 5). -/
def Obligations.CsumVerifyMeaning : Prop :=
  decodeCommand 0x00000002 = .ok .csumVerify ∧
  ∀ s : State,
    (s.err = true → exec .csumVerify s = .next s) ∧
    (s.err = false → s.bufSize < s.len.toNat →
      exec .csumVerify s = .next { s with err := true, ecode := 2 }) ∧
    (s.err = false → s.len.toNat ≤ s.bufSize →
      ∃ (b : List Byte) (acc : Word) (res : Half) (d : Nat),
        b.length = s.len.toNat ∧ s.buf.ReadsAs 0 b ∧ acc.toNat = wsum s.cfg.oddPad b + s.cks.toNat ∧ res.toNat = fold (wsum s.cfg.oddPad b + s.cks.toNat) ∧
        exec .csumVerify s = .next
          { s with
            acc := acc, res := res, valid := decide (fold (wsum s.cfg.oddPad b + s.cks.toNat) = 0xFFFF),
            runt := false, kind := 0, draws := d })

/-- R150. -/
def Obligations.HdrPackMeaning : Prop :=
  decodeCommand 0x00000010 = .ok .hdrPack ∧
  ∀ s : State,
    (s.err = true → exec .hdrPack s = .next s) ∧
    (s.err = false → s.cfg.maxPacketSize.val < s.plen.toNat →
      exec .hdrPack s = .next { s with err := true, ecode := 3 }) ∧
    (s.err = false → s.plen.toNat ≤ s.cfg.maxPacketSize.val →
      ∃ (m : Memory) (len : Half),
        exec .hdrPack s = .next { s with buf := m, len := len, valid := false, runt := false, kind := 0 } ∧
        len.toNat = 5 + s.plen.toNat ∧
        m.HoldsAt 0 [BitVec.ofNat 8 (s.seq.toNat / 256), BitVec.ofNat 8 (s.seq.toNat % 256),
          BitVec.ofNat 8 (s.cks.toNat / 256), BitVec.ofNat 8 (s.cks.toNat % 256), s.flg] ∧
        ∀ i, 5 ≤ i → m.byteAt i = s.buf.byteAt i)

/-- R152. An unwritten byte is read as some byte (R43), and the counter of free values may advance (log 5). -/
def Obligations.HdrUnpackMeaning : Prop :=
  decodeCommand 0x00000011 = .ok .hdrUnpack ∧
  ∀ s : State,
    (s.err = true → exec .hdrUnpack s = .next s) ∧
    (s.err = false → s.bufSize < s.len.toNat →
      exec .hdrUnpack s = .next { s with err := true, ecode := 2 }) ∧
    (s.err = false → s.len.toNat < 5 →
      exec .hdrUnpack s = .next { s with runt := true, valid := false, kind := 0 }) ∧
    (s.err = false → 5 ≤ s.len.toNat → s.len.toNat ≤ s.bufSize →
      ∃ (b0 b1 b2 b3 b4 : Byte) (seq cks plen : Half) (d : Nat),
        s.buf.ReadsAs 0 [b0, b1, b2, b3, b4] ∧
        seq.toNat = b0.toNat * 256 + b1.toNat ∧ cks.toNat = b2.toNat * 256 + b3.toNat ∧
        plen.toNat = s.len.toNat - 5 ∧
        exec .hdrUnpack s = .next
          { s with
            seq := seq, cks := cks, flg := b4, plen := plen, runt := false, valid := false, kind := 0, draws := d })

/-- R155. An unwritten payload byte is summed as some byte (R43), and the counter of free values may advance (log 5). -/
def Obligations.PktEncodeMeaning : Prop :=
  decodeCommand 0x00000012 = .ok .pktEncode ∧
  ∀ s : State,
    (s.err = true → exec .pktEncode s = .next s) ∧
    (s.err = false → s.cfg.maxPacketSize.val < s.plen.toNat →
      exec .pktEncode s = .next { s with err := true, ecode := 3 }) ∧
    (s.err = false → s.plen.toNat ≤ s.cfg.maxPacketSize.val →
      ∃ (p f0 : List Byte) (m : Memory) (len c : Half) (acc : Word) (d : Nat),
        p.length = s.plen.toNat ∧ s.buf.ReadsAs 5 p ∧
        f0 = [BitVec.ofNat 8 (s.seq.toNat / 256), BitVec.ofNat 8 (s.seq.toNat % 256), 0, 0, s.flg] ++ p ∧
        len.toNat = 5 + s.plen.toNat ∧ acc.toNat = wsum s.cfg.oddPad f0 ∧
        c.toNat = 0xFFFF - fold (wsum s.cfg.oddPad f0) ∧
        exec .pktEncode s = .next
          { s with
            buf := m, len := len, cks := c, acc := acc, res := c, valid := false, runt := false, kind := 0,
            draws := d } ∧
        m.HoldsAt 0 [BitVec.ofNat 8 (s.seq.toNat / 256), BitVec.ofNat 8 (s.seq.toNat % 256),
          BitVec.ofNat 8 (c.toNat / 256), BitVec.ofNat 8 (c.toNat % 256), s.flg] ∧
        ∀ i, 5 ≤ i → m.byteAt i = s.buf.byteAt i)

/-- R158. An unwritten byte is read as some byte, and need not be read alike where the sum, the field registers and `KIND`
take it (R43, log 5); where it is written all three take that byte. The counter of free values may advance (log 5). -/
def Obligations.PktDecodeMeaning : Prop :=
  decodeCommand 0x00000013 = .ok .pktDecode ∧
  ∀ s : State,
    (s.err = true → exec .pktDecode s = .next s) ∧
    (s.err = false → s.bufSize < s.len.toNat →
      exec .pktDecode s = .next { s with err := true, ecode := 2 }) ∧
    (s.err = false → s.len.toNat < 5 →
      exec .pktDecode s = .next { s with runt := true, valid := false, kind := 0 }) ∧
    (s.err = false → 5 ≤ s.len.toNat → s.len.toNat ≤ s.bufSize →
      ∃ (f : List Byte) (b0 b1 b2 b3 b4 k : Byte) (seq cks plen res : Half) (acc : Word) (d : Nat),
        f.length = s.len.toNat ∧ s.buf.ReadsAs 0 f ∧ s.buf.ReadsAs 0 [b0, b1, b2, b3, b4] ∧ s.buf.ReadsAs 4 [k] ∧
        seq.toNat = b0.toNat * 256 + b1.toNat ∧ cks.toNat = b2.toNat * 256 + b3.toNat ∧
        plen.toNat = s.len.toNat - 5 ∧
        acc.toNat = wsum s.cfg.oddPad f ∧ res.toNat = fold (wsum s.cfg.oddPad f) ∧
        exec .pktDecode s = .next
          { s with
            seq := seq, cks := cks, flg := b4, plen := plen, acc := acc, res := res,
            valid := decide (fold (wsum s.cfg.oddPad f) = 0xFFFF), runt := false,
            kind := if fold (wsum s.cfg.oddPad f) = 0xFFFF then kindBits k else 0, draws := d })

/-- R180. -/
def Obligations.SrstMeaning : Prop :=
  decodeCommand 0x000000FF = .ok .srst ∧
  (∀ s : State, exec .srst s = .next
    { s with
      seq := 0, cks := 0, flg := 0, plen := 0, len := 0, res := 0, acc := 0, kind := 0, valid := false,
      runt := false, err := false, ecode := 0 }) ∧
  (∀ (w : Word) (i : Instr) (s : State), decodeCommand w = .ok i → i ≠ .srst → s.err = true →
    exec i s = .next s) ∧
  (∀ s t : State, s.err = true → step s = .next t → t.err = false →
    ∃ rest, s.inbox = .wr 0x00 0x000000FF :: rest)

/-- The kind rows R171 to R177 run on every flags byte and state: each answers its predicate and changes nothing else.
That a row is a step of the host that answers a truth value is the model's choice (log 3). -/
def Obligations.KindTestsAnswerTheirPredicates : Prop :=
  ∀ (f : Byte) (s : State),
    exec (.kSyn f) s = .next { s with answer := .truth (decide (f &&& 0x01 ≠ 0)) } ∧
    exec (.kSynack f) s = .next { s with answer := .truth (decide (f &&& 0x05 = 0x05)) } ∧
    exec (.kAck f) s = .next { s with answer := .truth (decide (f &&& 0x04 ≠ 0)) } ∧
    exec (.kFin f) s = .next { s with answer := .truth (decide (f &&& 0x08 ≠ 0)) } ∧
    exec (.kFinack f) s = .next { s with answer := .truth (decide (f &&& 0x10 ≠ 0)) } ∧
    exec (.kNack f) s = .next { s with answer := .truth (decide (f &&& 0x40 ≠ 0)) } ∧
    exec (.kData f) s = .next { s with answer := .truth (decide (f &&& 0x80 ≠ 0)) }

/-- R170: the bits of `kind(f)`, and that no command but `PKT.DECODE` evaluates it. -/
def Obligations.KindVectorIsEvaluatedByDecodeOnly : Prop :=
  (∀ f : Byte,
    kindBits f = BitVec.ofNat 7
      ((decide (f &&& 0x01 ≠ 0)).toNat + 2 * (decide (f &&& 0x05 = 0x05)).toNat +
        4 * (decide (f &&& 0x04 ≠ 0)).toNat + 8 * (decide (f &&& 0x08 ≠ 0)).toNat +
        16 * (decide (f &&& 0x10 ≠ 0)).toNat + 32 * (decide (f &&& 0x40 ≠ 0)).toNat +
        64 * (decide (f &&& 0x80 ≠ 0)).toNat)) ∧
  (∀ (i : Instr) (s t : State), i ≠ .pktDecode → exec i s = .next t → t.kind = s.kind ∨ t.kind = 0)

/-- R178. -/
def Obligations.ReservedFlagsNeverChangeTheKind : Prop :=
  ∀ f : Byte, kindBits f = kindBits (f &&& 0xDD) ∧ kindBits (f ||| 0x22) = kindBits f

/-! ### Frames that hold whatever the buffer holds, unwritten bytes too (log 5) -/

/-- The checksum commands complete in every state; they change the sum registers, the result group and the counter of
free values when they execute, the fault state when they fault, and nothing else. -/
def Obligations.ChecksumCommandsFrame : Prop :=
  ∀ (i : Instr) (s : State), i = .csumCompute ∨ i = .csumVerify →
    ∃ t, exec i s = .next t ∧ sameButResults s t ∧ sameBuffer s t ∧
      (s.err = false → s.len.toNat ≤ s.bufSize →
        t.err = false ∧ t.ecode = s.ecode ∧ t.runt = false ∧ t.kind = 0) ∧
      (s.err = true ∨ s.bufSize < s.len.toNat →
        t.acc = s.acc ∧ t.res = s.res ∧ t.valid = s.valid ∧ t.runt = s.runt ∧ t.kind = s.kind)

/-- The unmarshalling commands complete in every state and change neither `LEN` nor any byte of the buffer; `HDR.UNPACK`
never changes `ACC` or `RES`; a runt, a fault or a refusal changes no field register. -/
def Obligations.UnmarshalCommandsFrame : Prop :=
  ∀ (i : Instr) (s : State), i = .hdrUnpack ∨ i = .pktDecode →
    ∃ t, exec i s = .next t ∧ t.cfg = s.cfg ∧ t.len = s.len ∧ t.inbox = s.inbox ∧ t.answer = s.answer ∧
      sameBuffer s t ∧ (i = .hdrUnpack → t.acc = s.acc ∧ t.res = s.res) ∧
      (s.err = false → s.len.toNat ≤ s.bufSize →
        t.err = false ∧ t.ecode = s.ecode ∧ t.runt = decide (s.len.toNat < 5)) ∧
      (s.err = true ∨ s.bufSize < s.len.toNat ∨ s.len.toNat < 5 →
        t.seq = s.seq ∧ t.cks = s.cks ∧ t.flg = s.flg ∧ t.plen = s.plen ∧ t.acc = s.acc ∧ t.res = s.res)

/-- The marshalling commands complete in every state and write the five header bytes only; `SEQ`, `FLG` and `PLEN` are
unchanged, for `HDR.PACK` also `CKS`, `ACC` and `RES`; a fault or a refusal stores nothing. -/
def Obligations.MarshalCommandsFrame : Prop :=
  ∀ (i : Instr) (s : State), i = .hdrPack ∨ i = .pktEncode →
    ∃ t, exec i s = .next t ∧ t.cfg = s.cfg ∧ t.seq = s.seq ∧ t.flg = s.flg ∧ t.plen = s.plen ∧
      t.inbox = s.inbox ∧ t.answer = s.answer ∧
      (∀ draw a, 5 ≤ a → readByte t.buf draw a = readByte s.buf draw a) ∧
      (i = .hdrPack → t.cks = s.cks ∧ t.acc = s.acc ∧ t.res = s.res) ∧
      (s.err = false → s.plen.toNat ≤ s.cfg.maxPacketSize.val →
        t.err = false ∧ t.ecode = s.ecode ∧ t.len.toNat = 5 + s.plen.toNat ∧
        t.valid = false ∧ t.runt = false ∧ t.kind = 0) ∧
      (s.err = true ∨ s.cfg.maxPacketSize.val < s.plen.toNat →
        sameBuffer s t ∧ t.len = s.len ∧ t.cks = s.cks ∧ t.acc = s.acc ∧ t.res = s.res)

/-- R42: "no command writes a payload byte": a step changes a byte from index 5 on only where the host stores one. -/
def Obligations.OnlyTheHostWritesThePayload : Prop :=
  ∀ (s t : State) (i : Nat), step s = .next t → 5 ≤ i →
    t.buf.byteAt i = s.buf.byteAt i ∨
    ∃ a v rest, s.inbox = .wrb a v :: rest ∧ a.toNat = 0x10000 + i ∧ t.buf.byteAt i = some v

/-! ### Commands against each other -/

/-- R151: `HDR.PACK` is idempotent, and the inverse of `HDR.UNPACK` on the header bytes and `LEN`. -/
def Obligations.HdrPackInvertsHdrUnpack : Prop :=
  (∀ s t : State, exec .hdrPack s = .next t → exec .hdrPack t = .next t) ∧
  (∀ (s : State) (b0 b1 b2 b3 b4 : Byte), s.err = false → 5 ≤ s.len.toNat → s.len.toNat ≤ s.bufSize →
    s.buf.HoldsAt 0 [b0, b1, b2, b3, b4] →
    ∃ t u, exec .hdrUnpack s = .next t ∧ exec .hdrPack t = .next u ∧ u.len = s.len ∧
      ∀ a, u.buf.byteAt a = s.buf.byteAt a)

/-- R156: `PKT.ENCODE` equals `WR CKS, 0; HDR.PACK; CSUM.COMPUTE; WR CKS, RES; HDR.PACK` on the whole state of the block. -/
def Obligations.PktEncodeEqualsThePrimitives : Prop :=
  ∀ (s : State) (p : List Byte), s.err = false → s.plen.toNat ≤ s.cfg.maxPacketSize.val →
    p.length = s.plen.toNat → s.buf.HoldsAt 5 p →
    ∃ t1 t2 t3 d, exec .hdrPack { s with cks := 0 } = .next t1 ∧ exec .csumCompute t1 = .next t2 ∧
      exec .hdrPack { t2 with cks := t2.res } = .next t3 ∧ exec .pktEncode s = .next { t3 with draws := d }

/-- R157: every frame `PKT.ENCODE` produces is judged valid by `PKT.DECODE`, with the same fields and payload. -/
def Obligations.EncodeDecodeRoundTrip : Prop :=
  ∀ (s : State) (p : List Byte), s.err = false → s.plen.toNat ≤ s.cfg.maxPacketSize.val →
    p.length = s.plen.toNat → s.buf.HoldsAt 5 p →
    ∃ t u, exec .pktEncode s = .next t ∧ exec .pktDecode t = .next u ∧ u.valid = true ∧ u.runt = false ∧
      u.err = false ∧ u.seq = s.seq ∧ u.flg = s.flg ∧ u.plen = s.plen ∧ u.cks = t.cks ∧ u.len = t.len ∧
      u.kind = kindBits s.flg ∧ u.buf.HoldsAt 5 p

/-- R159: `PKT.DECODE` equals `HDR.UNPACK; WR CKS, 0; CSUM.VERIFY` and restoring `CKS`, but for `KIND`. -/
def Obligations.PktDecodeEqualsUnpackAndVerify : Prop :=
  ∀ (s : State) (f : List Byte), s.err = false → 5 ≤ s.len.toNat → s.len.toNat ≤ s.bufSize →
    f.length = s.len.toNat → s.buf.HoldsAt 0 f →
    ∃ t1 t2 k d, exec .hdrUnpack s = .next t1 ∧ exec .csumVerify { t1 with cks := 0 } = .next t2 ∧
      exec .pktDecode s = .next { t2 with cks := t1.cks, kind := k, draws := d }

/-- R135 on the block: `CSUM.COMPUTE; WR CKS, RES; CSUM.VERIFY` over an unchanged buffer ends with `VALID` = 1. -/
def Obligations.ComputeThenVerifyIsValid : Prop :=
  ∀ (s : State) (b : List Byte), s.err = false → s.len.toNat ≤ s.bufSize → b.length = s.len.toNat →
    s.buf.HoldsAt 0 b →
    ∃ t u, exec .csumCompute s = .next t ∧ exec .csumVerify { t with cks := t.res } = .next u ∧
      u.valid = true ∧ u.err = false ∧ u.res = 0xFFFF

/-- R30, R200 to R204: after `PKT.DECODE` of a written frame the host's test for a kind passes exactly when the frame sums
to all ones and its flags byte is of that kind. -/
def Obligations.AcceptedFramesAreValidAndOfTheirKind : Prop :=
  ∀ (s : State) (b0 b1 b2 b3 b4 : Byte) (p f : List Byte) (k : Kind), s.err = false →
    s.len.toNat ≤ s.bufSize → f = b0 :: b1 :: b2 :: b3 :: b4 :: p → f.length = s.len.toNat →
    s.buf.HoldsAt 0 f →
    ∃ t, exec .pktDecode s = .next t ∧
      (t.accepts k = true ↔ fold (wsum s.cfg.oddPad f) = 0xFFFF ∧ k ∈ kindsOf b4)

/-! ### The host's transactions (`42_system.md`) -/

/-- R181. -/
def Obligations.HostWriteMeaning : Prop :=
  ∀ (s : State) (a : Addr) (v : Word) (rest : List HostStep), s.inbox = .wr a v :: rest →
    (s.err = true → a = 0x00 → v = 0x000000FF →
      step s = exec .srst { s with inbox := rest, answer := .nothing }) ∧
    (s.err = true → ¬ (a = 0x00 ∧ v = 0x000000FF) →
      step s = .next { s with inbox := rest, answer := .nothing }) ∧
    (s.err = false →
      (a = 0x00 →
        (∀ i, (v, i) ∈ commandTable → step s = exec i { s with inbox := rest, answer := .nothing }) ∧
        ((∀ i, (v, i) ∉ commandTable) →
          step s = .next { s with inbox := rest, answer := .nothing, err := true, ecode := 1 })) ∧
      (a = 0x08 → step s = .next { s with inbox := rest, answer := .nothing, seq := BitVec.ofNat 16 v.toNat }) ∧
      (a = 0x0C → step s = .next { s with inbox := rest, answer := .nothing, cks := BitVec.ofNat 16 v.toNat }) ∧
      (a = 0x10 → step s = .next { s with inbox := rest, answer := .nothing, flg := BitVec.ofNat 8 v.toNat }) ∧
      (a = 0x14 → step s = .next { s with inbox := rest, answer := .nothing, plen := BitVec.ofNat 16 v.toNat }) ∧
      (a = 0x18 → step s = .next { s with inbox := rest, answer := .nothing, len := BitVec.ofNat 16 v.toNat }) ∧
      (a ∉ writable →
        step s = .next { s with inbox := rest, answer := .nothing, err := true, ecode := 4 }))

/-- R182, with the numbers R31 and R41 give `STATUS` and `CAP`. -/
def Obligations.HostReadMeaning : Prop :=
  ∀ (s : State) (a : Addr) (rest : List HostStep), s.inbox = .rd a :: rest →
    (∀ n, (a, n) ∈ readable s →
      ∃ v : Word, v.toNat = n ∧ step s = .next { s with inbox := rest, answer := .word v }) ∧
    (a ∉ (readable s).map Prod.fst →
      (s.err = true → step s = .next { s with inbox := rest, answer := .word 0 }) ∧
      (s.err = false →
        step s = .next { s with inbox := rest, answer := .word 0, err := true, ecode := 4 }))

/-- R183. -/
def Obligations.HostWriteByteMeaning : Prop :=
  ∀ (s : State) (a : Addr) (v : Byte) (rest : List HostStep), s.inbox = .wrb a v :: rest →
    (s.err = true → step s = .next { s with inbox := rest, answer := .nothing }) ∧
    (s.err = false → inBuffer s a →
      ∃ m : Memory, step s = .next { s with inbox := rest, answer := .nothing, buf := m } ∧
        m.byteAt (a.toNat - 0x10000) = some v ∧
        ∀ i, i ≠ a.toNat - 0x10000 → m.byteAt i = s.buf.byteAt i) ∧
    (s.err = false → ¬ inBuffer s a →
      step s = .next { s with inbox := rest, answer := .nothing, err := true, ecode := 4 })

/-- R184. The counter of free values may advance (log 5); an unwritten byte reads as some byte. -/
def Obligations.HostReadByteMeaning : Prop :=
  ∀ (s : State) (a : Addr) (rest : List HostStep), s.inbox = .rdb a :: rest →
    (inBuffer s a →
      ∃ (v : Byte) (d : Nat), step s = .next { s with inbox := rest, answer := .byte v, draws := d } ∧
        ∀ b, s.buf.byteAt (a.toNat - 0x10000) = some b → v = b) ∧
    (¬ inBuffer s a →
      (s.err = true → step s = .next { s with inbox := rest, answer := .byte 0 }) ∧
      (s.err = false →
        step s = .next { s with inbox := rest, answer := .byte 0, err := true, ecode := 4 }))

/-- R66: every transaction that R62 and R63 do not permit, and its effect. -/
def Obligations.AccessViolations : Prop :=
  ∀ (s : State) (h : HostStep) (rest : List HostStep), s.inbox = h :: rest → ¬ permitted s h →
    (s.err = false →
      step s = .next { s with inbox := rest, answer := zeroAnswer h, err := true, ecode := 4 }) ∧
    (s.err = true → step s = .next { s with inbox := rest, answer := zeroAnswer h })

/-- R64: a write to a read-write register of width w stores the low w bits, and a read gives them back zero-extended. -/
def Obligations.RegisterWritesTruncate : Prop :=
  ∀ (s : State) (a : Addr) (w : Nat) (v : Word) (rest : List HostStep),
    (a, w) ∈ [((0x08 : Addr), 16), (0x0C, 16), (0x10, 8), (0x14, 16), (0x18, 16)] → s.err = false →
    s.inbox = .wr a v :: .rd a :: rest →
    ∃ t u r, step s = .next t ∧ t.err = false ∧ step t = .next u ∧ u.err = false ∧ u.answer = .word r ∧
      r.toNat = v.toNat % 2 ^ w

/-- R41: `CAP` shows the configuration, is read-only, and is constant under every step. -/
def Obligations.CapShowsTheConfiguration : Prop :=
  (∀ s : State, ∃ v, s.readReg .cap = some v ∧ v.toNat % 0x10000 = s.cfg.maxPacketSize.val ∧
    v.toNat / 0x10000 = (if s.cfg.oddPad = .zext then 0 else 1)) ∧
  (∀ (s t : State) (v : Word) (rest : List HostStep), s.inbox = .wr 0x28 v :: rest → step s = .next t →
    t = { s with inbox := rest, answer := .nothing, err := true, ecode := if s.err then s.ecode else 4 }) ∧
  (∀ s t : State, step s = .next t → t.readReg .cap = s.readReg .cap)

/-! ### Results, faults and the faulted condition (`10_state.md`, `60_exceptions.md`) -/

/-- R33: every executed command rewrites the result group; a host access that is no command leaves it alone. -/
def Obligations.EveryExecutedCommandRewritesTheResults : Prop :=
  (∀ (i : Instr) (w : Word) (s t : State), (w, i) ∈ commandTable → s.err = false ∨ i = .srst →
    exec i s = .next t → t.err = false →
    (i ∈ [Instr.csumCompute, .hdrPack, .pktEncode, .srst] → t.valid = false ∧ t.runt = false ∧ t.kind = 0) ∧
    (i = .csumVerify → t.valid = decide (t.res = 0xFFFF) ∧ t.runt = false ∧ t.kind = 0) ∧
    (i = .hdrUnpack → t.valid = false ∧ t.runt = decide (s.len.toNat < 5) ∧ t.kind = 0) ∧
    (i = .pktDecode → s.len.toNat < 5 → t.valid = false ∧ t.runt = true ∧ t.kind = 0) ∧
    (i = .pktDecode → 5 ≤ s.len.toNat → t.valid = decide (t.res = 0xFFFF) ∧ t.runt = false ∧
      (t.valid = false → t.kind = 0) ∧
      (∀ b, t.valid = true → s.buf.byteAt 4 = some b → t.kind = kindBits b))) ∧
  (∀ (s t : State) (h : HostStep) (rest : List HostStep), s.inbox = h :: rest → (∀ w, h ≠ .wr 0x00 w) →
    step s = .next t → t.valid = s.valid ∧ t.runt = s.runt ∧ t.kind = s.kind)

/-- R34: what a fault records, that a second one changes nothing, and that no step but the `SRST` write clears it. -/
def Obligations.FirstFaultIsKept : Prop :=
  (∀ (c : FaultCode) (s : State), s.err = false →
    raise c s = { s with err := true, ecode := c.code } ∧ c.code ≠ 0) ∧
  (∀ (c : FaultCode) (s : State), s.err = true → raise c s = s) ∧
  (∀ (s t : State), s.err = true → step s = .next t → (∀ rest, s.inbox ≠ .wr 0x00 0x000000FF :: rest) →
    t.err = true ∧ t.ecode = s.ecode)

/-- R35: in the faulted condition reads return the current state, writes are ignored, and only `SRST` ends it. -/
def Obligations.FaultedConditionIgnoresWrites : Prop :=
  ∀ (s : State) (h : HostStep) (rest : List HostStep), s.inbox = h :: rest → s.err = true →
    (∀ a n, h = .rd a → (a, n) ∈ readable s →
      ∃ v : Word, v.toNat = n ∧ step s = .next { s with inbox := rest, answer := .word v }) ∧
    (∀ a b, h = .rdb a → inBuffer s a → s.buf.byteAt (a.toNat - 0x10000) = some b →
      ∃ d, step s = .next { s with inbox := rest, answer := .byte b, draws := d }) ∧
    (∀ a v, h = .wr a v → ¬ isResetWrite h → step s = .next { s with inbox := rest, answer := .nothing }) ∧
    (∀ a v, h = .wrb a v → step s = .next { s with inbox := rest, answer := .nothing }) ∧
    (isResetWrite h → ∃ t, step s = .next t ∧ t.err = false ∧ t.statusWord = 0) ∧
    (∀ t, step s = .next t → t.err = false → isResetWrite h)

/-- R220, R224: raising a fault writes the code and `ERR` if `ERR` is 0 and nothing else; from `ERR` = 0 a step raises a fault exactly when one of the listed causes holds, with that cause's
code, and a faulting step changes nothing else. -/
def Obligations.FaultsAreCompleteAndPrecise : Prop :=
  (∀ (c : FaultCode) (s : State), raise c s = if s.err then s else { s with err := true, ecode := c.code }) ∧
  ∀ (s : State) (h : HostStep) (rest : List HostStep), s.inbox = h :: rest → s.err = false →
    (∀ c, causes s h c →
      step s = .next { s with inbox := rest, answer := zeroAnswer h, err := true, ecode := c }) ∧
    (∀ t, step s = .next t → t.err = true → causes s h t.ecode)

/-! ### The machine -/

/-- R50: the state after hard reset and after `SRST`. -/
def Obligations.ResetValues : Prop :=
  (State.reset.seq = 0 ∧ State.reset.cks = 0 ∧ State.reset.flg = 0 ∧ State.reset.plen = 0 ∧ State.reset.len = 0 ∧
    State.reset.res = 0 ∧ State.reset.acc = 0 ∧ State.reset.kind = 0 ∧ State.reset.statusWord = 0 ∧
    State.reset.valid = false ∧ State.reset.runt = false ∧ State.reset.err = false ∧ State.reset.ecode = 0 ∧
    (∃ v, State.reset.readReg .cap = some v ∧ v.toNat = State.reset.cfg.maxPacketSize.val +
      (if State.reset.cfg.oddPad = .rfcHigh then 0x10000 else 0)) ∧ ∀ i, State.reset.buf.byteAt i = none) ∧
  (∀ s : State, ∃ t, exec .srst s = .next t ∧ t.seq = 0 ∧ t.cks = 0 ∧ t.flg = 0 ∧ t.plen = 0 ∧ t.len = 0 ∧
    t.res = 0 ∧ t.acc = 0 ∧ t.kind = 0 ∧ t.statusWord = 0 ∧ t.valid = false ∧ t.runt = false ∧ t.err = false ∧
    t.ecode = 0 ∧ t.readReg .cap = s.readReg .cap ∧ t.buf = s.buf)

/-- Every step completes with a next state: no fault of the spec stops the block (R224, R262), and no instruction is
refused; with no host step waiting nothing changes (R252, log 1). -/
def Obligations.EveryStepCompletes : Prop :=
  (∀ s : State, ∃ t, step s = .next t ∧ (∀ h rest, s.inbox = h :: rest → t.inbox = rest)) ∧
  (∀ s : State, s.inbox = [] → step s = .next s)

/-- The invariant holds at reset. -/
def Obligations.ResetMeetsTheInvariant : Prop := State.reset.Inv

/-- The invariant is kept by every step from every state that meets it. -/
def Obligations.EveryStepKeepsTheInvariant : Prop :=
  ∀ s t : State, s.Inv → step s = .next t → t.Inv
end

