-- ==== Sys2Proof/Laws/State.lean ====
section
/-! SUPPORT. What each update of the state does to each of its fields: one lemma per field per update, so that no proof
unfolds a record update. -/

namespace Sys2Proof.Machine

/-! ### `softReset` -/

@[simp] theorem softReset_cfg (s : State) : (softReset s).cfg = s.cfg := rfl
@[simp] theorem softReset_seq (s : State) : (softReset s).seq = 0 := rfl
@[simp] theorem softReset_cks (s : State) : (softReset s).cks = 0 := rfl
@[simp] theorem softReset_flg (s : State) : (softReset s).flg = 0 := rfl
@[simp] theorem softReset_plen (s : State) : (softReset s).plen = 0 := rfl
@[simp] theorem softReset_len (s : State) : (softReset s).len = 0 := rfl
@[simp] theorem softReset_res (s : State) : (softReset s).res = 0 := rfl
@[simp] theorem softReset_acc (s : State) : (softReset s).acc = 0 := rfl
@[simp] theorem softReset_kind (s : State) : (softReset s).kind = 0 := rfl
@[simp] theorem softReset_valid (s : State) : (softReset s).valid = false := rfl
@[simp] theorem softReset_runt (s : State) : (softReset s).runt = false := rfl
@[simp] theorem softReset_err (s : State) : (softReset s).err = false := rfl
@[simp] theorem softReset_ecode (s : State) : (softReset s).ecode = 0 := rfl
@[simp] theorem softReset_buf (s : State) : (softReset s).buf = s.buf := rfl
@[simp] theorem softReset_draws (s : State) : (softReset s).draws = s.draws := rfl
@[simp] theorem softReset_inbox (s : State) : (softReset s).inbox = s.inbox := rfl
@[simp] theorem softReset_answer (s : State) : (softReset s).answer = s.answer := rfl

/-! ### `setResults` -/

@[simp] theorem setResults_cfg (v r : Bool) (k : BitVec 7) (s : State) : (setResults v r k s).cfg = s.cfg := rfl
@[simp] theorem setResults_seq (v r : Bool) (k : BitVec 7) (s : State) : (setResults v r k s).seq = s.seq := rfl
@[simp] theorem setResults_cks (v r : Bool) (k : BitVec 7) (s : State) : (setResults v r k s).cks = s.cks := rfl
@[simp] theorem setResults_flg (v r : Bool) (k : BitVec 7) (s : State) : (setResults v r k s).flg = s.flg := rfl
@[simp] theorem setResults_plen (v r : Bool) (k : BitVec 7) (s : State) : (setResults v r k s).plen = s.plen := rfl
@[simp] theorem setResults_len (v r : Bool) (k : BitVec 7) (s : State) : (setResults v r k s).len = s.len := rfl
@[simp] theorem setResults_res (v r : Bool) (k : BitVec 7) (s : State) : (setResults v r k s).res = s.res := rfl
@[simp] theorem setResults_acc (v r : Bool) (k : BitVec 7) (s : State) : (setResults v r k s).acc = s.acc := rfl
@[simp] theorem setResults_kind (v r : Bool) (k : BitVec 7) (s : State) : (setResults v r k s).kind = k := rfl
@[simp] theorem setResults_valid (v r : Bool) (k : BitVec 7) (s : State) : (setResults v r k s).valid = v := rfl
@[simp] theorem setResults_runt (v r : Bool) (k : BitVec 7) (s : State) : (setResults v r k s).runt = r := rfl
@[simp] theorem setResults_err (v r : Bool) (k : BitVec 7) (s : State) : (setResults v r k s).err = s.err := rfl
@[simp] theorem setResults_ecode (v r : Bool) (k : BitVec 7) (s : State) : (setResults v r k s).ecode = s.ecode := rfl
@[simp] theorem setResults_buf (v r : Bool) (k : BitVec 7) (s : State) : (setResults v r k s).buf = s.buf := rfl
@[simp] theorem setResults_draws (v r : Bool) (k : BitVec 7) (s : State) : (setResults v r k s).draws = s.draws := rfl
@[simp] theorem setResults_inbox (v r : Bool) (k : BitVec 7) (s : State) : (setResults v r k s).inbox = s.inbox := rfl
@[simp] theorem setResults_answer (v r : Bool) (k : BitVec 7) (s : State) : (setResults v r k s).answer = s.answer := rfl

/-! ### `clearResults` -/

@[simp] theorem clearResults_cfg (s : State) : (clearResults s).cfg = s.cfg := rfl
@[simp] theorem clearResults_seq (s : State) : (clearResults s).seq = s.seq := rfl
@[simp] theorem clearResults_cks (s : State) : (clearResults s).cks = s.cks := rfl
@[simp] theorem clearResults_flg (s : State) : (clearResults s).flg = s.flg := rfl
@[simp] theorem clearResults_plen (s : State) : (clearResults s).plen = s.plen := rfl
@[simp] theorem clearResults_len (s : State) : (clearResults s).len = s.len := rfl
@[simp] theorem clearResults_res (s : State) : (clearResults s).res = s.res := rfl
@[simp] theorem clearResults_acc (s : State) : (clearResults s).acc = s.acc := rfl
@[simp] theorem clearResults_kind (s : State) : (clearResults s).kind = 0 := rfl
@[simp] theorem clearResults_valid (s : State) : (clearResults s).valid = false := rfl
@[simp] theorem clearResults_runt (s : State) : (clearResults s).runt = false := rfl
@[simp] theorem clearResults_err (s : State) : (clearResults s).err = s.err := rfl
@[simp] theorem clearResults_ecode (s : State) : (clearResults s).ecode = s.ecode := rfl
@[simp] theorem clearResults_buf (s : State) : (clearResults s).buf = s.buf := rfl
@[simp] theorem clearResults_draws (s : State) : (clearResults s).draws = s.draws := rfl
@[simp] theorem clearResults_inbox (s : State) : (clearResults s).inbox = s.inbox := rfl
@[simp] theorem clearResults_answer (s : State) : (clearResults s).answer = s.answer := rfl

/-! ### `showSum` -/

@[simp] theorem showSum_cfg (x y : Nat) (s : State) : (showSum x y s).cfg = s.cfg := rfl
@[simp] theorem showSum_seq (x y : Nat) (s : State) : (showSum x y s).seq = s.seq := rfl
@[simp] theorem showSum_cks (x y : Nat) (s : State) : (showSum x y s).cks = s.cks := rfl
@[simp] theorem showSum_flg (x y : Nat) (s : State) : (showSum x y s).flg = s.flg := rfl
@[simp] theorem showSum_plen (x y : Nat) (s : State) : (showSum x y s).plen = s.plen := rfl
@[simp] theorem showSum_len (x y : Nat) (s : State) : (showSum x y s).len = s.len := rfl
@[simp] theorem showSum_res (x y : Nat) (s : State) : (showSum x y s).res = BitVec.ofNat 16 y := rfl
@[simp] theorem showSum_acc (x y : Nat) (s : State) : (showSum x y s).acc = BitVec.ofNat 32 x := rfl
@[simp] theorem showSum_kind (x y : Nat) (s : State) : (showSum x y s).kind = s.kind := rfl
@[simp] theorem showSum_valid (x y : Nat) (s : State) : (showSum x y s).valid = s.valid := rfl
@[simp] theorem showSum_runt (x y : Nat) (s : State) : (showSum x y s).runt = s.runt := rfl
@[simp] theorem showSum_err (x y : Nat) (s : State) : (showSum x y s).err = s.err := rfl
@[simp] theorem showSum_ecode (x y : Nat) (s : State) : (showSum x y s).ecode = s.ecode := rfl
@[simp] theorem showSum_buf (x y : Nat) (s : State) : (showSum x y s).buf = s.buf := rfl
@[simp] theorem showSum_draws (x y : Nat) (s : State) : (showSum x y s).draws = s.draws := rfl
@[simp] theorem showSum_inbox (x y : Nat) (s : State) : (showSum x y s).inbox = s.inbox := rfl
@[simp] theorem showSum_answer (x y : Nat) (s : State) : (showSum x y s).answer = s.answer := rfl

/-! ### `drawn` -/

@[simp] theorem drawn_cfg (s : State) (n : Nat) : (s.drawn n).cfg = s.cfg := rfl
@[simp] theorem drawn_seq (s : State) (n : Nat) : (s.drawn n).seq = s.seq := rfl
@[simp] theorem drawn_cks (s : State) (n : Nat) : (s.drawn n).cks = s.cks := rfl
@[simp] theorem drawn_flg (s : State) (n : Nat) : (s.drawn n).flg = s.flg := rfl
@[simp] theorem drawn_plen (s : State) (n : Nat) : (s.drawn n).plen = s.plen := rfl
@[simp] theorem drawn_len (s : State) (n : Nat) : (s.drawn n).len = s.len := rfl
@[simp] theorem drawn_res (s : State) (n : Nat) : (s.drawn n).res = s.res := rfl
@[simp] theorem drawn_acc (s : State) (n : Nat) : (s.drawn n).acc = s.acc := rfl
@[simp] theorem drawn_kind (s : State) (n : Nat) : (s.drawn n).kind = s.kind := rfl
@[simp] theorem drawn_valid (s : State) (n : Nat) : (s.drawn n).valid = s.valid := rfl
@[simp] theorem drawn_runt (s : State) (n : Nat) : (s.drawn n).runt = s.runt := rfl
@[simp] theorem drawn_err (s : State) (n : Nat) : (s.drawn n).err = s.err := rfl
@[simp] theorem drawn_ecode (s : State) (n : Nat) : (s.drawn n).ecode = s.ecode := rfl
@[simp] theorem drawn_buf (s : State) (n : Nat) : (s.drawn n).buf = s.buf := rfl
@[simp] theorem drawn_draws (s : State) (n : Nat) : (s.drawn n).draws = s.draws + n := rfl
@[simp] theorem drawn_inbox (s : State) (n : Nat) : (s.drawn n).inbox = s.inbox := rfl
@[simp] theorem drawn_answer (s : State) (n : Nat) : (s.drawn n).answer = s.answer := rfl

/-! ### `answering` -/

@[simp] theorem answering_cfg (s : State) (a : Answer) : (s.answering a).cfg = s.cfg := rfl
@[simp] theorem answering_seq (s : State) (a : Answer) : (s.answering a).seq = s.seq := rfl
@[simp] theorem answering_cks (s : State) (a : Answer) : (s.answering a).cks = s.cks := rfl
@[simp] theorem answering_flg (s : State) (a : Answer) : (s.answering a).flg = s.flg := rfl
@[simp] theorem answering_plen (s : State) (a : Answer) : (s.answering a).plen = s.plen := rfl
@[simp] theorem answering_len (s : State) (a : Answer) : (s.answering a).len = s.len := rfl
@[simp] theorem answering_res (s : State) (a : Answer) : (s.answering a).res = s.res := rfl
@[simp] theorem answering_acc (s : State) (a : Answer) : (s.answering a).acc = s.acc := rfl
@[simp] theorem answering_kind (s : State) (a : Answer) : (s.answering a).kind = s.kind := rfl
@[simp] theorem answering_valid (s : State) (a : Answer) : (s.answering a).valid = s.valid := rfl
@[simp] theorem answering_runt (s : State) (a : Answer) : (s.answering a).runt = s.runt := rfl
@[simp] theorem answering_err (s : State) (a : Answer) : (s.answering a).err = s.err := rfl
@[simp] theorem answering_ecode (s : State) (a : Answer) : (s.answering a).ecode = s.ecode := rfl
@[simp] theorem answering_buf (s : State) (a : Answer) : (s.answering a).buf = s.buf := rfl
@[simp] theorem answering_draws (s : State) (a : Answer) : (s.answering a).draws = s.draws := rfl
@[simp] theorem answering_inbox (s : State) (a : Answer) : (s.answering a).inbox = s.inbox := rfl
@[simp] theorem answering_answer (s : State) (a : Answer) : (s.answering a).answer = a := rfl

/-! ### `taking` -/

@[simp] theorem taking_cfg (s : State) (rest : List HostStep) : (s.taking rest).cfg = s.cfg := rfl
@[simp] theorem taking_seq (s : State) (rest : List HostStep) : (s.taking rest).seq = s.seq := rfl
@[simp] theorem taking_cks (s : State) (rest : List HostStep) : (s.taking rest).cks = s.cks := rfl
@[simp] theorem taking_flg (s : State) (rest : List HostStep) : (s.taking rest).flg = s.flg := rfl
@[simp] theorem taking_plen (s : State) (rest : List HostStep) : (s.taking rest).plen = s.plen := rfl
@[simp] theorem taking_len (s : State) (rest : List HostStep) : (s.taking rest).len = s.len := rfl
@[simp] theorem taking_res (s : State) (rest : List HostStep) : (s.taking rest).res = s.res := rfl
@[simp] theorem taking_acc (s : State) (rest : List HostStep) : (s.taking rest).acc = s.acc := rfl
@[simp] theorem taking_kind (s : State) (rest : List HostStep) : (s.taking rest).kind = s.kind := rfl
@[simp] theorem taking_valid (s : State) (rest : List HostStep) : (s.taking rest).valid = s.valid := rfl
@[simp] theorem taking_runt (s : State) (rest : List HostStep) : (s.taking rest).runt = s.runt := rfl
@[simp] theorem taking_err (s : State) (rest : List HostStep) : (s.taking rest).err = s.err := rfl
@[simp] theorem taking_ecode (s : State) (rest : List HostStep) : (s.taking rest).ecode = s.ecode := rfl
@[simp] theorem taking_buf (s : State) (rest : List HostStep) : (s.taking rest).buf = s.buf := rfl
@[simp] theorem taking_draws (s : State) (rest : List HostStep) : (s.taking rest).draws = s.draws := rfl
@[simp] theorem taking_inbox (s : State) (rest : List HostStep) : (s.taking rest).inbox = rest := rfl
@[simp] theorem taking_answer (s : State) (rest : List HostStep) : (s.taking rest).answer = .nothing := rfl

/-! ### `putHeader` -/

@[simp] theorem putHeader_cfg (s : State) (c : Half) : (putHeader s c).cfg = s.cfg := rfl
@[simp] theorem putHeader_seq (s : State) (c : Half) : (putHeader s c).seq = s.seq := rfl
@[simp] theorem putHeader_cks (s : State) (c : Half) : (putHeader s c).cks = s.cks := rfl
@[simp] theorem putHeader_flg (s : State) (c : Half) : (putHeader s c).flg = s.flg := rfl
@[simp] theorem putHeader_plen (s : State) (c : Half) : (putHeader s c).plen = s.plen := rfl
@[simp] theorem putHeader_len (s : State) (c : Half) :
    (putHeader s c).len = BitVec.ofNat 16 (hdrSize + s.plen.toNat) := rfl
@[simp] theorem putHeader_res (s : State) (c : Half) : (putHeader s c).res = s.res := rfl
@[simp] theorem putHeader_acc (s : State) (c : Half) : (putHeader s c).acc = s.acc := rfl
@[simp] theorem putHeader_kind (s : State) (c : Half) : (putHeader s c).kind = s.kind := rfl
@[simp] theorem putHeader_valid (s : State) (c : Half) : (putHeader s c).valid = s.valid := rfl
@[simp] theorem putHeader_runt (s : State) (c : Half) : (putHeader s c).runt = s.runt := rfl
@[simp] theorem putHeader_err (s : State) (c : Half) : (putHeader s c).err = s.err := rfl
@[simp] theorem putHeader_ecode (s : State) (c : Half) : (putHeader s c).ecode = s.ecode := rfl
@[simp] theorem putHeader_buf (s : State) (c : Half) :
    (putHeader s c).buf = s.buf.storeBytes 0 (headerBytes s.seq c s.flg) := rfl
@[simp] theorem putHeader_draws (s : State) (c : Half) : (putHeader s c).draws = s.draws := rfl
@[simp] theorem putHeader_inbox (s : State) (c : Half) : (putHeader s c).inbox = s.inbox := rfl
@[simp] theorem putHeader_answer (s : State) (c : Half) : (putHeader s c).answer = s.answer := rfl

/-! ### `takeHeader` -/

@[simp] theorem takeHeader_cfg (s : State) (d : Nat) : (takeHeader s d).cfg = s.cfg := rfl
@[simp] theorem takeHeader_seq (s : State) (d : Nat) :
    (takeHeader s d).seq = be16 (readByte s.buf d 0) (readByte s.buf d 1) := rfl
@[simp] theorem takeHeader_cks (s : State) (d : Nat) :
    (takeHeader s d).cks = be16 (readByte s.buf d 2) (readByte s.buf d 3) := rfl
@[simp] theorem takeHeader_flg (s : State) (d : Nat) : (takeHeader s d).flg = readByte s.buf d 4 := rfl
@[simp] theorem takeHeader_plen (s : State) (d : Nat) :
    (takeHeader s d).plen = BitVec.ofNat 16 (s.len.toNat - hdrSize) := rfl
@[simp] theorem takeHeader_len (s : State) (d : Nat) : (takeHeader s d).len = s.len := rfl
@[simp] theorem takeHeader_res (s : State) (d : Nat) : (takeHeader s d).res = s.res := rfl
@[simp] theorem takeHeader_acc (s : State) (d : Nat) : (takeHeader s d).acc = s.acc := rfl
@[simp] theorem takeHeader_kind (s : State) (d : Nat) : (takeHeader s d).kind = s.kind := rfl
@[simp] theorem takeHeader_valid (s : State) (d : Nat) : (takeHeader s d).valid = s.valid := rfl
@[simp] theorem takeHeader_runt (s : State) (d : Nat) : (takeHeader s d).runt = s.runt := rfl
@[simp] theorem takeHeader_err (s : State) (d : Nat) : (takeHeader s d).err = s.err := rfl
@[simp] theorem takeHeader_ecode (s : State) (d : Nat) : (takeHeader s d).ecode = s.ecode := rfl
@[simp] theorem takeHeader_buf (s : State) (d : Nat) : (takeHeader s d).buf = s.buf := rfl
@[simp] theorem takeHeader_draws (s : State) (d : Nat) : (takeHeader s d).draws = s.draws := rfl
@[simp] theorem takeHeader_inbox (s : State) (d : Nat) : (takeHeader s d).inbox = s.inbox := rfl
@[simp] theorem takeHeader_answer (s : State) (d : Nat) : (takeHeader s d).answer = s.answer := rfl

/-! ### `raise` (the fault state by its own lemmas in `Laws/Ops.lean`) -/

@[simp] theorem raise_cfg (c : FaultCode) (s : State) : (raise c s).cfg = s.cfg := by unfold raise; split <;> rfl
@[simp] theorem raise_seq (c : FaultCode) (s : State) : (raise c s).seq = s.seq := by unfold raise; split <;> rfl
@[simp] theorem raise_cks (c : FaultCode) (s : State) : (raise c s).cks = s.cks := by unfold raise; split <;> rfl
@[simp] theorem raise_flg (c : FaultCode) (s : State) : (raise c s).flg = s.flg := by unfold raise; split <;> rfl
@[simp] theorem raise_plen (c : FaultCode) (s : State) : (raise c s).plen = s.plen := by unfold raise; split <;> rfl
@[simp] theorem raise_len (c : FaultCode) (s : State) : (raise c s).len = s.len := by unfold raise; split <;> rfl
@[simp] theorem raise_res (c : FaultCode) (s : State) : (raise c s).res = s.res := by unfold raise; split <;> rfl
@[simp] theorem raise_acc (c : FaultCode) (s : State) : (raise c s).acc = s.acc := by unfold raise; split <;> rfl
@[simp] theorem raise_kind (c : FaultCode) (s : State) : (raise c s).kind = s.kind := by unfold raise; split <;> rfl
@[simp] theorem raise_valid (c : FaultCode) (s : State) : (raise c s).valid = s.valid := by unfold raise; split <;> rfl
@[simp] theorem raise_runt (c : FaultCode) (s : State) : (raise c s).runt = s.runt := by unfold raise; split <;> rfl
@[simp] theorem raise_buf (c : FaultCode) (s : State) : (raise c s).buf = s.buf := by unfold raise; split <;> rfl
@[simp] theorem raise_draws (c : FaultCode) (s : State) : (raise c s).draws = s.draws := by unfold raise; split <;> rfl
@[simp] theorem raise_inbox (c : FaultCode) (s : State) : (raise c s).inbox = s.inbox := by unfold raise; split <;> rfl
@[simp] theorem raise_answer (c : FaultCode) (s : State) : (raise c s).answer = s.answer := by unfold raise; split <;> rfl

/-! ### `violation` (the fault state by its own lemmas in `Laws/Ops.lean`) -/

@[simp] theorem violation_cfg (s : State) (a : Answer) : (violation s a).cfg = s.cfg := raise_cfg .access s
@[simp] theorem violation_seq (s : State) (a : Answer) : (violation s a).seq = s.seq := raise_seq .access s
@[simp] theorem violation_cks (s : State) (a : Answer) : (violation s a).cks = s.cks := raise_cks .access s
@[simp] theorem violation_flg (s : State) (a : Answer) : (violation s a).flg = s.flg := raise_flg .access s
@[simp] theorem violation_plen (s : State) (a : Answer) : (violation s a).plen = s.plen := raise_plen .access s
@[simp] theorem violation_len (s : State) (a : Answer) : (violation s a).len = s.len := raise_len .access s
@[simp] theorem violation_res (s : State) (a : Answer) : (violation s a).res = s.res := raise_res .access s
@[simp] theorem violation_acc (s : State) (a : Answer) : (violation s a).acc = s.acc := raise_acc .access s
@[simp] theorem violation_kind (s : State) (a : Answer) : (violation s a).kind = s.kind := raise_kind .access s
@[simp] theorem violation_valid (s : State) (a : Answer) : (violation s a).valid = s.valid := raise_valid .access s
@[simp] theorem violation_runt (s : State) (a : Answer) : (violation s a).runt = s.runt := raise_runt .access s
@[simp] theorem violation_buf (s : State) (a : Answer) : (violation s a).buf = s.buf := raise_buf .access s
@[simp] theorem violation_draws (s : State) (a : Answer) : (violation s a).draws = s.draws := raise_draws .access s
@[simp] theorem violation_inbox (s : State) (a : Answer) : (violation s a).inbox = s.inbox := raise_inbox .access s
@[simp] theorem violation_answer (s : State) (a : Answer) : (violation s a).answer = a := rfl

/-! ### Sizes -/

theorem bufSize_eq (s : State) : s.bufSize = 5 + s.cfg.maxPacketSize.val := rfl

end Sys2Proof.Machine
end

