-- ==== Sys2Proof/Laws/Memory.lean ====
section
/-! SUPPORT. The laws of the frame buffer: a read after a write, the canonical form, and byte strings. -/

namespace Sys2Proof.Machine

@[simp] theorem byteAt_store_same (m : Memory) (i : Nat) (v : Byte) : (m.store i v).byteAt i = some v := by
  induction m with
  | nil => simp [Memory.store, Memory.byteAt]
  | cons c m ih =>
    obtain ⟨a, b⟩ := c
    by_cases h1 : i < a
    · simp [Memory.store, Memory.byteAt, h1]
    · by_cases h2 : i = a
      · simp [Memory.store, Memory.byteAt, h2]
      · simp [Memory.store, Memory.byteAt, h1, h2, ih]

theorem byteAt_store_other (m : Memory) {i j : Nat} (v : Byte) (h : j ≠ i) :
    (m.store i v).byteAt j = m.byteAt j := by
  induction m with
  | nil => simp [Memory.store, Memory.byteAt, h]
  | cons c m ih =>
    obtain ⟨a, b⟩ := c
    by_cases h1 : i < a
    · simp [Memory.store, Memory.byteAt, h1, h]
    · by_cases h2 : i = a
      · subst h2; simp [Memory.store, Memory.byteAt, h]
      · simp [Memory.store, Memory.byteAt, h1, h2, ih]

/-- A store adds no index but its own. -/
theorem mem_store {m : Memory} {i : Nat} {v : Byte} {c : Host.Cell} (h : c ∈ m.store i v) :
    c = (i, v) ∨ c ∈ m := by
  induction m with
  | nil => simpa [Memory.store] using h
  | cons d m ih =>
    obtain ⟨a, b⟩ := d
    unfold Memory.store at h
    split at h
    · simpa using h
    · split at h
      · rcases List.mem_cons.1 h with h | h <;> simp [h]
      · rcases List.mem_cons.1 h with h | h
        · simp [h]
        · rcases ih h with h | h <;> simp [h]

/-- Every memory operation keeps the canonical form. -/
theorem store_wf {m : Memory} (h : m.wf) (i : Nat) (v : Byte) : (m.store i v).wf := by
  induction m with
  | nil => simp [Memory.store, Memory.wf]
  | cons d m ih =>
    obtain ⟨a, b⟩ := d
    obtain ⟨ha, hm⟩ := List.pairwise_cons.1 h
    unfold Memory.store
    split
    case isTrue hlt =>
      refine List.pairwise_cons.2 ⟨?_, h⟩
      intro c hc
      rcases List.mem_cons.1 hc with rfl | hc
      · exact hlt
      · exact lt_trans hlt (ha c hc)
    case isFalse hge =>
      split
      case isTrue he => subst he; exact List.pairwise_cons.2 ⟨ha, hm⟩
      case isFalse hne =>
        refine List.pairwise_cons.2 ⟨?_, ih hm⟩
        intro c hc
        rcases mem_store hc with rfl | hc
        · show a < i; omega
        · exact ha c hc

theorem storeBytes_wf {m : Memory} (h : m.wf) (i : Nat) (b : List Byte) : (m.storeBytes i b).wf := by
  induction b generalizing m i with
  | nil => exact h
  | cons v b ih => exact ih (store_wf h i v) (i + 1)

theorem mem_storeBytes {m : Memory} {i : Nat} {b : List Byte} {c : Host.Cell} (h : c ∈ m.storeBytes i b) :
    (i ≤ c.1 ∧ c.1 < i + b.length) ∨ c ∈ m := by
  induction b generalizing m i with
  | nil => exact .inr h
  | cons v b ih =>
    rcases ih h with ⟨h1, h2⟩ | h
    · left; simp; omega
    · rcases mem_store h with rfl | h
      · left; simp
      · exact .inr h

/-- Outside the stored bytes every byte is as before. -/
theorem byteAt_storeBytes_outside (m : Memory) (i : Nat) (b : List Byte) (j : Nat)
    (h : j < i ∨ i + b.length ≤ j) : (m.storeBytes i b).byteAt j = m.byteAt j := by
  induction b generalizing m i with
  | nil => rfl
  | cons v b ih =>
    simp only [List.length_cons] at h
    rw [Memory.storeBytes, ih _ _ (by omega), byteAt_store_other _ _ (by omega)]

/-- The stored bytes are what was stored. -/
theorem storeBytes_holds (m : Memory) (i : Nat) (b : List Byte) : (m.storeBytes i b).HoldsAt i b := by
  induction b generalizing m i with
  | nil => intro k h; simp at h
  | cons v b ih =>
    intro k h
    cases k with
    | zero => simp [Memory.storeBytes, byteAt_storeBytes_outside _ (i + 1) b i (by omega)]
    | succ k =>
      have := ih (m.store i v) (i + 1) k (by simpa using h)
      rwa [show i + 1 + k = i + (k + 1) by omega] at this

/-- A written byte reads as itself in every read. -/
theorem readByte_of_byteAt {m : Memory} {i : Nat} {b : Byte} (h : m.byteAt i = some b) (draw : Nat) :
    readByte m draw i = b := by simp [readByte, h]

theorem readByte_congr {m n : Memory} {i : Nat} (h : m.byteAt i = n.byteAt i) (draw : Nat) :
    readByte m draw i = readByte n draw i := by simp [readByte, h]

@[simp] theorem readBytes_length (m : Memory) (draw i n : Nat) : (readBytes m draw i n).length = n := by
  induction n generalizing i with
  | zero => rfl
  | succ n ih => simp [readBytes, ih]

/-- Bytes that were written read as themselves. -/
theorem readBytes_of_holds {m : Memory} {i : Nat} {b : List Byte} (h : m.HoldsAt i b) (draw : Nat) :
    readBytes m draw i b.length = b := by
  induction b generalizing i with
  | nil => rfl
  | cons v b ih =>
    have h0 : m.byteAt i = some v := h 0 (by simp)
    have ht : m.HoldsAt (i + 1) b := by
      intro k hk
      have := h (k + 1) (by simpa using hk)
      rwa [show i + (k + 1) = i + 1 + k by omega] at this
    simp [readBytes, readByte_of_byteAt h0, ih ht]

/-- Whatever the read, the bytes read are bytes that may be read (R43). -/
theorem readsAs_readBytes (m : Memory) (draw i n : Nat) : m.ReadsAs i (readBytes m draw i n) := by
  induction n generalizing i with
  | zero => intro k h; simp [readBytes] at h
  | succ n ih =>
    intro k h v hv
    match k with
    | 0 => simpa [readBytes] using readByte_of_byteAt (by simpa using hv) draw
    | k + 1 =>
      simp only [readBytes, List.getElem_cons_succ]
      exact ih (i + 1) k (by simpa [readBytes] using h) v (by rw [show i + 1 + k = i + (k + 1) by omega]; exact hv)

/-- Bytes that may be read are the written bytes where all were written. -/
theorem ReadsAs.eq_of_holds {m : Memory} {i : Nat} {b c : List Byte} (hb : m.ReadsAs i b) (hc : m.HoldsAt i c)
    (hl : b.length = c.length) : b = c :=
  List.ext_getElem hl fun k h1 h2 => hb k h1 _ (hc k h2)

/-- A prefix and the rest of held bytes are held. -/
theorem holdsAt_append {m : Memory} {i : Nat} {b c : List Byte} :
    m.HoldsAt i (b ++ c) ↔ m.HoldsAt i b ∧ m.HoldsAt (i + b.length) c := by
  constructor
  · intro h
    refine ⟨fun k hk => ?_, fun k hk => ?_⟩
    · have := h k (by simp; omega)
      rwa [List.getElem_append_left hk] at this
    · have := h (b.length + k) (by simp; omega)
      rw [Nat.add_assoc]
      simpa using this
  · rintro ⟨h1, h2⟩ k hk
    by_cases hb : k < b.length
    · rw [List.getElem_append_left hb]; exact h1 k hb
    · have := h2 (k - b.length) (by simp at hk; omega)
      rw [List.getElem_append_right (by omega)]
      rw [show i + k = i + b.length + (k - b.length) by omega]
      exact this

/-- A later store at the same index replaces an earlier one. -/
theorem store_store_same (m : Memory) (i : Nat) (v w : Byte) : (m.store i v).store i w = m.store i w := by
  induction m with
  | nil => simp [Memory.store]
  | cons c m ih =>
    obtain ⟨a, b⟩ := c
    by_cases h1 : i < a
    · simp [Memory.store, h1]
    · by_cases h2 : i = a
      · simp [Memory.store, h2]
      · simp [Memory.store, h1, h2, ih]

/-- Stores at different indices commute. -/
theorem store_comm (m : Memory) {i j : Nat} (v w : Byte) (h : i < j) :
    (m.store i v).store j w = (m.store j w).store i v := by
  have hne : j ≠ i := by omega
  have hlt : ¬ j < i := by omega
  induction m with
  | nil => simp [Memory.store, h, hne, hlt]
  | cons c m ih =>
    obtain ⟨a, b⟩ := c
    by_cases h1 : i < a
    · by_cases h3 : j < a
      · simp [Memory.store, h1, h, hne, hlt, h3]
      · by_cases h4 : j = a
        · subst h4; simp [Memory.store, h1, hne, hlt]
        · simp [Memory.store, h1, hne, hlt, h3, h4]
    · by_cases h2 : i = a
      · subst h2; simp [Memory.store, hne, hlt]
      · have h3 : ¬ j < a := by omega
        by_cases h4 : j = a
        · omega
        · simp [Memory.store, h1, h2, h3, h4, ih]

end Sys2Proof.Machine
end

