-- ==== Sys2Proof/Laws/Ops.lean ====
section
/-! SUPPORT. One lemma per shared operation: what it can do, for the proofs to cite instead of unfolding it. -/

namespace Sys2Proof.Machine

/-! ### Faults and the checks before an effect -/

theorem raise_of_clean {s : State} (h : s.err = false) (c : FaultCode) :
    raise c s = { s with err := true, ecode := c.code } := by simp [raise, h]

theorem raise_of_faulted {s : State} (h : s.err = true) (c : FaultCode) : raise c s = s := by simp [raise, h]

@[simp] theorem raise_err (c : FaultCode) (s : State) : (raise c s).err = true := by
  cases h : s.err <;> simp [raise, h]

theorem unlessFaulted_next {s t : State} {go : Out State} (h : unlessFaulted s go = .next t) :
    (s.err = true ∧ t = s) ∨ (s.err = false ∧ go = .next t) := by
  unfold unlessFaulted at h
  split at h
  · next he => exact .inl ⟨he, by cases h; rfl⟩
  · next he => exact .inr ⟨by simpa using he, h⟩

theorem checkLen_next {s t : State} {go : Out State} (h : checkLen s go = .next t) :
    (s.bufSize < s.len.toNat ∧ t = raise .len s) ∨ (s.len.toNat ≤ s.bufSize ∧ go = .next t) := by
  unfold checkLen at h
  split at h
  · next he => exact .inl ⟨he, by cases h; rfl⟩
  · next he => exact .inr ⟨by omega, h⟩

theorem checkPlen_next {s t : State} {go : Out State} (h : checkPlen s go = .next t) :
    (s.cfg.maxPacketSize.val < s.plen.toNat ∧ t = raise .plen s) ∨
      (s.plen.toNat ≤ s.cfg.maxPacketSize.val ∧ go = .next t) := by
  unfold checkPlen at h
  split at h
  · next he => exact .inl ⟨he, by cases h; rfl⟩
  · next he => exact .inr ⟨by omega, h⟩

theorem unlessRunt_next {s t : State} {go : Out State} (h : unlessRunt s go = .next t) :
    (s.len.toNat < 5 ∧ t = setResults false true 0 s) ∨ (5 ≤ s.len.toNat ∧ go = .next t) := by
  unfold unlessRunt hdrSize at h
  split at h
  · next he => exact .inl ⟨he, by cases h; rfl⟩
  · next he => exact .inr ⟨by omega, h⟩

theorem unlessFaulted_faulted {s : State} (h : s.err = true) (go : Out State) : unlessFaulted s go = .next s := by
  simp [unlessFaulted, h]

theorem unlessFaulted_clean {s : State} (h : s.err = false) (go : Out State) : unlessFaulted s go = go := by
  simp [unlessFaulted, h]

theorem checkLen_over {s : State} (h : s.bufSize < s.len.toNat) (go : Out State) :
    checkLen s go = .next (raise .len s) := if_pos h

theorem checkLen_fits {s : State} (h : s.len.toNat ≤ s.bufSize) (go : Out State) : checkLen s go = go :=
  if_neg (by omega)

theorem checkPlen_over {s : State} (h : s.cfg.maxPacketSize.val < s.plen.toNat) (go : Out State) :
    checkPlen s go = .next (raise .plen s) := if_pos h

theorem checkPlen_fits {s : State} (h : s.plen.toNat ≤ s.cfg.maxPacketSize.val) (go : Out State) :
    checkPlen s go = go := if_neg (by omega)

theorem unlessRunt_runt {s : State} (h : s.len.toNat < 5) (go : Out State) :
    unlessRunt s go = .next (setResults false true 0 s) := if_pos h

theorem unlessRunt_long {s : State} (h : 5 ≤ s.len.toNat) (go : Out State) : unlessRunt s go = go :=
  if_neg (by simp only [hdrSize]; omega)

/-- The gate and the checks complete wherever what they guard does. -/
theorem unlessFaulted_completes {s : State} {go : Out State} (h : ∃ t, go = .next t) :
    ∃ t, unlessFaulted s go = .next t := by
  unfold unlessFaulted; split
  · exact ⟨s, rfl⟩
  · exact h

theorem checkLen_completes {s : State} {go : Out State} (h : ∃ t, go = .next t) :
    ∃ t, checkLen s go = .next t := by
  unfold checkLen; split
  · exact ⟨_, rfl⟩
  · exact h

theorem checkPlen_completes {s : State} {go : Out State} (h : ∃ t, go = .next t) :
    ∃ t, checkPlen s go = .next t := by
  unfold checkPlen; split
  · exact ⟨_, rfl⟩
  · exact h

theorem unlessRunt_completes {s : State} {go : Out State} (h : ∃ t, go = .next t) :
    ∃ t, unlessRunt s go = .next t := by
  unfold unlessRunt; split
  · exact ⟨_, rfl⟩
  · exact h

/-! ### The address map -/

theorem bufSize_le (s : State) : s.bufSize ≤ 65535 := by
  have := s.cfg.maxPacketSize.isLt
  simp only [State.bufSize, hdrSize]; omega

theorem regAt_eq_some {a : Addr} {r : Reg} : regAt a = some r ↔ a = r.addr := by
  constructor
  · intro h
    unfold regAt at h
    repeat (split at h; · next he => cases h; exact he)
    cases h
  · rintro rfl
    cases r <;> rfl

theorem bufIndex_eq_some {s : State} {a : Addr} {i : Nat} :
    s.bufIndex a = some i ↔ a.toNat = 0x10000 + i ∧ i < s.bufSize := by
  unfold State.bufIndex
  split <;> simp only [Option.some.injEq, reduceCtorEq, false_iff] <;> omega

theorem bufIndex_eq_none {s : State} {a : Addr} :
    s.bufIndex a = none ↔ ¬ (0x10000 ≤ a.toNat ∧ a.toNat < 0x10000 + s.bufSize) := by
  unfold State.bufIndex
  split <;> simp_all

/-! ### Bytes and numbers -/

theorem be16_toNat (a b : Byte) : (be16 a b).toNat = a.toNat * 256 + b.toNat := by
  have hb := b.isLt
  rw [be16, BitVec.toNat_append, Nat.shiftLeft_eq, Nat.mul_comm, ← Nat.two_pow_add_eq_or_of_lt hb,
    Nat.mul_comm]

theorem hiByte_eq (v : Half) : hiByte v = BitVec.ofNat 8 (v.toNat / 256) := by
  simp [hiByte, BitVec.extractLsb'_toNat, ← BitVec.toNat_inj, Nat.shiftRight_eq_div_pow]

theorem loByte_eq (v : Half) : loByte v = BitVec.ofNat 8 (v.toNat % 256) := by
  simp [loByte, ← BitVec.toNat_inj]

@[simp] theorem hiByte_be16 (a b : Byte) : hiByte (be16 a b) = a := by
  have := be16_toNat a b
  have hb := b.isLt
  rw [hiByte_eq, this, ← BitVec.toNat_inj, BitVec.toNat_ofNat]
  have ha := a.isLt
  omega

@[simp] theorem loByte_be16 (a b : Byte) : loByte (be16 a b) = b := by
  have := be16_toNat a b
  have hb := b.isLt
  rw [loByte_eq, this, ← BitVec.toNat_inj, BitVec.toNat_ofNat]
  omega

@[simp] theorem be16_hi_lo (v : Half) : be16 (hiByte v) (loByte v) = v := by
  have hv := v.isLt
  rw [← BitVec.toNat_inj, be16_toNat, hiByte_eq, loByte_eq, BitVec.toNat_ofNat, BitVec.toNat_ofNat]
  omega

@[simp] theorem headerBytes_length (seq cks : Half) (flg : Byte) : (headerBytes seq cks flg).length = 5 := rfl

/-! ### The word sum and the fold -/

@[simp] theorem wsum_nil (pad : OddPad) : wsum pad [] = 0 := rfl

@[simp] theorem wsum_cons_cons (pad : OddPad) (a b : Byte) (r : List Byte) :
    wsum pad (a :: b :: r) = a.toNat * 256 + b.toNat + wsum pad r := rfl

theorem oddTail_le (pad : OddPad) (b : Byte) : oddTail pad b ≤ 0xFF00 := by
  have := b.isLt
  cases pad <;> simp only [oddTail] <;> omega

/-- The word sum of an even-length string followed by another. -/
theorem wsum_append (pad : OddPad) : ∀ (x y : List Byte), x.length % 2 = 0 → wsum pad (x ++ y) = wsum pad x + wsum pad y
  | [], y, _ => by simp
  | [_], _, h => by simp at h
  | a :: b :: x, y, h => by
    have := wsum_append pad x y (by simp only [List.length_cons] at h; omega)
    simp [this]; omega

/-- Every word is at most 65535. -/
theorem wsum_le_words (pad : OddPad) : ∀ b : List Byte, wsum pad b ≤ 65535 * ((b.length + 1) / 2)
  | [] => by simp
  | [b] => by have := oddTail_le pad b; simp only [wsum, List.length_cons, List.length_nil]; omega
  | a :: b :: r => by
    have h := wsum_le_words pad r
    have ha := a.isLt
    have hb := b.isLt
    simp only [wsum_cons_cons, List.length_cons]
    omega

theorem fold_eq (v : Nat) :
    fold v = if 0x10000 ≤ v then
      (if 0x10000 ≤ v % 0x10000 + v / 0x10000 then
        (v % 0x10000 + v / 0x10000) % 0x10000 + (v % 0x10000 + v / 0x10000) / 0x10000
       else v % 0x10000 + v / 0x10000)
      else v := by
  simp only [fold, foldLoop, Nat.shiftRight_eq_div_pow]

/-- Two passes leave a 16-bit number (R131). -/
theorem fold_lt {v : Nat} (h : v < 2 ^ 32) : fold v < 0x10000 := by
  rw [fold_eq]; split <;> (try split) <;> omega

theorem compute_lt (pad : OddPad) (b : List Byte) : compute pad b < 0x10000 := by
  unfold compute; omega

end Sys2Proof.Machine
end

