-- ==== Sys2Proof/Laws/Exec.lean ====
section
/-! SUPPORT. One inversion lemma per meaning and per host step: everything it can answer. The proofs about all
instructions, and about all steps, are case splits over these. -/

namespace Sys2Proof.Machine

theorem execCsumCompute_cases {s t : State} (h : execCsumCompute s = .next t) :
    (s.err = true ∧ t = s) ∨ (s.err = false ∧ s.bufSize < s.len.toNat ∧ t = raise .len s) ∨
    (s.err = false ∧ s.len.toNat ≤ s.bufSize ∧
      t = clearResults (showSum (wsum s.cfg.oddPad (frameBytes s s.draws))
        (compute s.cfg.oddPad (frameBytes s s.draws)) (s.drawn 1))) := by
  rcases unlessFaulted_next h with h | ⟨he, h⟩
  · exact .inl h
  · rcases checkLen_next h with ⟨h1, h2⟩ | ⟨h1, h2⟩
    · exact .inr (.inl ⟨he, h1, h2⟩)
    · exact .inr (.inr ⟨he, h1, by cases h2; rfl⟩)

theorem execCsumVerify_cases {s t : State} (h : execCsumVerify s = .next t) :
    (s.err = true ∧ t = s) ∨ (s.err = false ∧ s.bufSize < s.len.toNat ∧ t = raise .len s) ∨
    (s.err = false ∧ s.len.toNat ≤ s.bufSize ∧
      t = setResults (verify s.cfg.oddPad (frameBytes s s.draws) s.cks) false 0
        (showSum (wsum s.cfg.oddPad (frameBytes s s.draws) + s.cks.toNat)
          (fold (wsum s.cfg.oddPad (frameBytes s s.draws) + s.cks.toNat)) (s.drawn 1))) := by
  rcases unlessFaulted_next h with h | ⟨he, h⟩
  · exact .inl h
  · rcases checkLen_next h with ⟨h1, h2⟩ | ⟨h1, h2⟩
    · exact .inr (.inl ⟨he, h1, h2⟩)
    · exact .inr (.inr ⟨he, h1, by cases h2; rfl⟩)

theorem execHdrPack_cases {s t : State} (h : execHdrPack s = .next t) :
    (s.err = true ∧ t = s) ∨
    (s.err = false ∧ s.cfg.maxPacketSize.val < s.plen.toNat ∧ t = raise .plen s) ∨
    (s.err = false ∧ s.plen.toNat ≤ s.cfg.maxPacketSize.val ∧ t = clearResults (putHeader s s.cks)) := by
  rcases unlessFaulted_next h with h | ⟨he, h⟩
  · exact .inl h
  · rcases checkPlen_next h with ⟨h1, h2⟩ | ⟨h1, h2⟩
    · exact .inr (.inl ⟨he, h1, h2⟩)
    · exact .inr (.inr ⟨he, h1, by cases h2; rfl⟩)

theorem execHdrUnpack_cases {s t : State} (h : execHdrUnpack s = .next t) :
    (s.err = true ∧ t = s) ∨ (s.err = false ∧ s.bufSize < s.len.toNat ∧ t = raise .len s) ∨
    (s.err = false ∧ s.len.toNat < 5 ∧ t = setResults false true 0 s) ∨
    (s.err = false ∧ s.len.toNat ≤ s.bufSize ∧ 5 ≤ s.len.toNat ∧
      t = clearResults ((takeHeader s s.draws).drawn 1)) := by
  rcases unlessFaulted_next h with h | ⟨he, h⟩
  · exact .inl h
  · rcases checkLen_next h with ⟨h1, h2⟩ | ⟨h1, h2⟩
    · exact .inr (.inl ⟨he, h1, h2⟩)
    · rcases unlessRunt_next h2 with ⟨h3, h4⟩ | ⟨h3, h4⟩
      · exact .inr (.inr (.inl ⟨he, h3, h4⟩))
      · exact .inr (.inr (.inr ⟨he, h1, h3, by cases h4; rfl⟩))

/-- The zero-checksum image that `PKT.ENCODE` sums (R155, `f0`). -/
theorem execPktEncode_cases {s t : State} (h : execPktEncode s = .next t) :
    (s.err = true ∧ t = s) ∨
    (s.err = false ∧ s.cfg.maxPacketSize.val < s.plen.toNat ∧ t = raise .plen s) ∨
    (s.err = false ∧ s.plen.toNat ≤ s.cfg.maxPacketSize.val ∧
      ∃ f0 c, f0 = headerBytes s.seq 0 s.flg ++ payloadBytes s s.draws ∧ c = compute s.cfg.oddPad f0 ∧
        t = clearResults (showSum (wsum s.cfg.oddPad f0) c
          { (putHeader s (BitVec.ofNat 16 c)).drawn 1 with cks := BitVec.ofNat 16 c })) := by
  rcases unlessFaulted_next h with h | ⟨he, h⟩
  · exact .inl h
  · rcases checkPlen_next h with ⟨h1, h2⟩ | ⟨h1, h2⟩
    · exact .inr (.inl ⟨he, h1, h2⟩)
    · exact .inr (.inr ⟨he, h1, _, _, rfl, rfl, by cases h2; rfl⟩)

theorem execPktDecode_cases {s t : State} (h : execPktDecode s = .next t) :
    (s.err = true ∧ t = s) ∨ (s.err = false ∧ s.bufSize < s.len.toNat ∧ t = raise .len s) ∨
    (s.err = false ∧ s.len.toNat < 5 ∧ t = setResults false true 0 s) ∨
    (s.err = false ∧ s.len.toNat ≤ s.bufSize ∧ 5 ≤ s.len.toNat ∧
      ∃ w ok, w = wsum s.cfg.oddPad (frameBytes s s.draws) ∧ ok = (fold w == 0xFFFF) ∧
        t = setResults ok false (if ok then kindBits (readByte s.buf (s.draws + 2) 4) else 0)
          (showSum w (fold w) ((takeHeader s (s.draws + 1)).drawn 3))) := by
  rcases unlessFaulted_next h with h | ⟨he, h⟩
  · exact .inl h
  · rcases checkLen_next h with ⟨h1, h2⟩ | ⟨h1, h2⟩
    · exact .inr (.inl ⟨he, h1, h2⟩)
    · rcases unlessRunt_next h2 with ⟨h3, h4⟩ | ⟨h3, h4⟩
      · exact .inr (.inr (.inl ⟨he, h3, h4⟩))
      · exact .inr (.inr (.inr ⟨he, h1, h3, _, _, rfl, rfl, by cases h4; rfl⟩))

theorem execSrst_cases {s t : State} (h : execSrst s = .next t) : t = softReset s := by cases h; rfl

/-- A kind test answers and does nothing else, whichever row it is. -/
theorem exec_kind_cases {k : Kind} {f : Byte} {s t : State} (h : exec (k.instr f) s = .next t) :
    ∃ b, t = s.answering (.truth b) := by
  cases k <;> cases h <;> exact ⟨_, rfl⟩

/-! ### Decoding, as far as the machine needs it -/

/-- The only words that decode are the seven of the opcode map, so a decoded word is never a kind row. -/
theorem decodeCommand_ok {w : Word} {i : Instr} (h : decodeCommand w = .ok i) :
    ∃ r ∈ commandRows, r.instr = i ∧ w &&& r.mask = r.value := by
  unfold decodeCommand at h
  split at h
  · next r hr =>
    cases h
    exact ⟨r, List.mem_of_find?_eq_some hr, rfl, by simpa using List.find?_some hr⟩
  · cases h

/-- What the issue of a command word can do with `ERR` = 0: one of the seven meanings, or `E_ILLCMD`. -/
theorem issueCommand_cases {v : Word} {s t : State} (h : issueCommand v s = .next t) :
    (∃ i, decodeCommand v = .ok i ∧ exec i s = .next t) ∨
    ((∃ r, decodeCommand v = .error r) ∧ t = raise .illCmd s) := by
  unfold issueCommand at h
  split at h
  · next i hi => exact .inl ⟨i, hi, h⟩
  · next r hr => exact .inr ⟨⟨r, hr⟩, by cases h; rfl⟩

/-! ### The host's transactions -/

theorem hostWrite_cases {a : Addr} {v : Word} {s t : State} (h : hostWrite a v s = .next t) :
    (s.err = true ∧ a = 0x00 ∧ v = 0x000000FF ∧ t = softReset s) ∨
    (s.err = true ∧ ¬ (a = 0x00 ∧ v = 0x000000FF) ∧ t = s) ∨
    (s.err = false ∧ a = 0x00 ∧ issueCommand v s = .next t) ∨
    (s.err = false ∧ ∃ r, regAt a = some r ∧ r ≠ .cmd ∧ s.writeReg v r = some t) ∨
    (s.err = false ∧ (∀ r, regAt a = some r → r ≠ .cmd ∧ s.writeReg v r = none) ∧ t = violation s .nothing) := by
  unfold hostWrite at h
  split at h
  · next he =>
    split at h
    · next hc => exact .inl ⟨he, hc.1, hc.2, execSrst_cases h⟩
    · next hc => exact .inr (.inl ⟨he, hc, by cases h; rfl⟩)
  · next he =>
    replace he : s.err = false := by simpa using he
    split at h
    · next r hr =>
      unfold writeSlot at h
      split at h
      · next hrc =>
        subst hrc
        exact .inr (.inr (.inl ⟨he, regAt_eq_some.1 hr, h⟩))
      · next hrc =>
        split at h
        · next u hu => cases h; exact .inr (.inr (.inr (.inl ⟨he, r, hr, hrc, hu⟩)))
        · next hu =>
          refine .inr (.inr (.inr (.inr ⟨he, ?_, by cases h; rfl⟩)))
          intro r' hr'
          obtain rfl : r = r' := by simpa [hr] using hr'
          exact ⟨hrc, hu⟩
    · next hr => exact .inr (.inr (.inr (.inr ⟨he, by simp [hr], by cases h; rfl⟩)))

/-- A register store changes one of the five read-write registers and nothing else (R62, R64). -/
theorem writeReg_cases {s t : State} {v : Word} {r : Reg} (h : s.writeReg v r = some t) :
    (r = .seq ∧ t = { s with seq := v.setWidth 16 }) ∨ (r = .cks ∧ t = { s with cks := v.setWidth 16 }) ∨
    (r = .flg ∧ t = { s with flg := v.setWidth 8 }) ∨ (r = .plen ∧ t = { s with plen := v.setWidth 16 }) ∨
    (r = .len ∧ t = { s with len := v.setWidth 16 }) := by
  cases r <;> cases h <;> simp

theorem hostRead_cases {a : Addr} {s t : State} (h : hostRead a s = .next t) :
    (∃ r v, regAt a = some r ∧ s.readReg r = some v ∧ t = s.answering (.word v)) ∨
    ((regAt a).bind s.readReg = none ∧ t = violation s (.word 0)) := by
  unfold hostRead at h
  split at h
  · next v hv =>
    obtain ⟨r, h1, h2⟩ := Option.bind_eq_some_iff.1 hv
    exact .inl ⟨r, v, h1, h2, by cases h; rfl⟩
  · next hv => exact .inr ⟨hv, by cases h; rfl⟩

theorem hostWriteByte_cases {a : Addr} {v : Byte} {s t : State} (h : hostWriteByte a v s = .next t) :
    (s.err = true ∧ t = s) ∨
    (s.err = false ∧ ∃ i, s.bufIndex a = some i ∧ t = { s with buf := s.buf.store i v }) ∨
    (s.err = false ∧ s.bufIndex a = none ∧ t = violation s .nothing) := by
  unfold hostWriteByte at h
  split at h
  · next he => exact .inl ⟨he, by cases h; rfl⟩
  · next he =>
    replace he : s.err = false := by simpa using he
    split at h
    · next i hi => exact .inr (.inl ⟨he, i, hi, by cases h; rfl⟩)
    · next hi => exact .inr (.inr ⟨he, hi, by cases h; rfl⟩)

theorem hostReadByte_cases {a : Addr} {s t : State} (h : hostReadByte a s = .next t) :
    (∃ i, s.bufIndex a = some i ∧ t = (s.drawn 1).answering (.byte (readByte s.buf s.draws i))) ∨
    (s.bufIndex a = none ∧ t = violation s (.byte 0)) := by
  unfold hostReadByte at h
  split at h
  · next i hi => exact .inl ⟨i, hi, by cases h; rfl⟩
  · next hi => exact .inr ⟨hi, by cases h; rfl⟩

/-- One step: nothing, or the host's first step performed whole (R15). -/
theorem step_cases {s t : State} (h : step s = .next t) :
    (s.inbox = [] ∧ t = s) ∨ ∃ x rest, s.inbox = x :: rest ∧ perform x (s.taking rest) = .next t := by
  unfold step at h
  split at h
  · next hi => exact .inl ⟨hi, by cases h; rfl⟩
  · next x rest hi => exact .inr ⟨x, rest, hi, h⟩

theorem step_of_inbox {s : State} {x : HostStep} {rest : List HostStep} (h : s.inbox = x :: rest) :
    step s = perform x (s.taking rest) := by simp [step, h]

theorem reset_clean : State.reset.Clean := rfl

end Sys2Proof.Machine
end

