-- ==== Sys2Proof/Laws/PerInstr.lean ====
section
/-! SUPPORT. The family `Roundtrip`: for each instruction, that it is among the readings of its own encoding exactly when it
is well formed. -/

namespace Sys2Proof.Laws.Roundtrip

/-- The bits an instruction encodes to read back as it, exactly when it is well formed. -/
def Statement (i : Instr) : Prop := i ∈ readings (encode i) ↔ i.WellFormed = true

theorem csumCompute : Statement .csumCompute := by unfold Statement; decide
theorem csumVerify : Statement .csumVerify := by unfold Statement; decide
theorem hdrPack : Statement .hdrPack := by unfold Statement; decide
theorem hdrUnpack : Statement .hdrUnpack := by unfold Statement; decide
theorem pktEncode : Statement .pktEncode := by unfold Statement; decide
theorem pktDecode : Statement .pktDecode := by unfold Statement; decide
theorem srst : Statement .srst := by unfold Statement; decide

/-- A kind is among those of a byte exactly when its row of R97 matches. -/
theorem mem_kindsOf (k : Kind) (f : Byte) :
    k ∈ kindsOf f ↔ ∃ r ∈ flagRows, r.kind = k ∧ f &&& r.mask = r.value := by
  simp only [kindsOf, List.mem_map, List.mem_filter, beq_iff_eq]
  constructor
  · rintro ⟨r, ⟨h1, h2⟩, h3⟩; exact ⟨r, h1, h3, h2⟩
  · rintro ⟨r, h1, h3, h2⟩; exact ⟨r, ⟨h1, h2⟩, h3⟩

/-- `Kind.instr` loses nothing. -/
theorem instr_inj {k l : Kind} {f g : Byte} (h : k.instr f = l.instr g) : k = l ∧ f = g := by
  cases k <;> cases l <;> first | (cases h; exact ⟨rfl, rfl⟩) | cases h

/-- A kind row is read from a flags byte exactly when the row matches it. -/
theorem mem_readings_flags (k : Kind) (f : Byte) : k.instr f ∈ readings (.flags f) ↔ k ∈ kindsOf f := by
  simp only [readings, List.mem_map]
  constructor
  · rintro ⟨l, hl, h⟩; exact (instr_inj h).1 ▸ hl
  · intro h; exact ⟨k, h, rfl⟩

theorem kSyn (f : Byte) : Statement (.kSyn f) :=
  (mem_readings_flags .syn f).trans (by rw [mem_kindsOf]; simp [flagRows, Instr.WellFormed])
theorem kSynack (f : Byte) : Statement (.kSynack f) :=
  (mem_readings_flags .synack f).trans (by rw [mem_kindsOf]; simp [flagRows, Instr.WellFormed])
theorem kAck (f : Byte) : Statement (.kAck f) :=
  (mem_readings_flags .ack f).trans (by rw [mem_kindsOf]; simp [flagRows, Instr.WellFormed])
theorem kFin (f : Byte) : Statement (.kFin f) :=
  (mem_readings_flags .fin f).trans (by rw [mem_kindsOf]; simp [flagRows, Instr.WellFormed])
theorem kFinack (f : Byte) : Statement (.kFinack f) :=
  (mem_readings_flags .finack f).trans (by rw [mem_kindsOf]; simp [flagRows, Instr.WellFormed])
theorem kNack (f : Byte) : Statement (.kNack f) :=
  (mem_readings_flags .nack f).trans (by rw [mem_kindsOf]; simp [flagRows, Instr.WellFormed])
theorem kData (f : Byte) : Statement (.kData f) :=
  (mem_readings_flags .data f).trans (by rw [mem_kindsOf]; simp [flagRows, Instr.WellFormed])

end Sys2Proof.Laws.Roundtrip
end

