-- ==== Sys2Proof/Tests/Slice0.lean ====
section
/-! SUPPORT. The author's own tests: ill-formed terms refused, words written out from the spec's encodings, the spec's
worked values (T-40, T-41, T-42 and T-60 of `95_test_vectors.md`, named at each), and a witness for the hypotheses of
every statement that has any, at the boundary values. -/

open Sys2Proof Sys2Proof.Machine Sys2Proof.Certificates

namespace Sys2Proof.Tests

/-! ### Small states -/

/-- The reset state with bytes written at index 0 and their number in `LEN` (`FRAME`, R106). -/
def frame (b : List Byte) : State :=
  { State.reset with buf := Memory.storeBytes [] 0 b, len := BitVec.ofNat 16 b.length }

/-- The same of an instance with `ODD_PAD` = `RFC_HIGH`. -/
def frameHigh (b : List Byte) : State := { frame b with cfg := { Config.reference with oddPad := .rfcHigh } }

/-- The reset state with a payload written and its length in `PLEN` (`PAYLOAD`, R106). -/
def payload (seq : Half) (flg : Byte) (b : List Byte) : State :=
  { State.reset with
    seq := seq, flg := flg, buf := Memory.storeBytes [] 5 b, plen := BitVec.ofNat 16 b.length }

/-- A faulted state (T-60-1). -/
def faulted : State := { State.reset with err := true, ecode := 1 }

/-- A state with host steps waiting. -/
def waiting (s : State) (h : List HostStep) : State := { s with inbox := h }

/-- What a step leaves, seen through `f`. -/
def seen {α : Type} (o : Out State) (f : State → α) : Option α :=
  match o with
  | .next t => some (f t)
  | _ => none

theorem of_seen {α : Type} {o : Out State} {f : State → α} {v : α} (h : seen o f = some v) :
    ∃ t, o = .next t ∧ f t = v := by
  cases o <;> simp_all [seen]

/-! ### Well-formedness: each check refuses an ill-formed term (R97) -/

theorem test_illFormed_kSyn : (Instr.kSyn 0xFE).WellFormed = false := by decide
theorem test_illFormed_kSynack : (Instr.kSynack 0xFB).WellFormed = false := by decide
theorem test_illFormed_kAck : (Instr.kAck 0xFB).WellFormed = false := by decide
theorem test_illFormed_kFin : (Instr.kFin 0xF7).WellFormed = false := by decide
theorem test_illFormed_kFinack : (Instr.kFinack 0xEF).WellFormed = false := by decide
theorem test_illFormed_kNack : (Instr.kNack 0xBF).WellFormed = false := by decide
theorem test_illFormed_kData : (Instr.kData 0x7F).WellFormed = false := by decide

/-! ### Decoding: the words of R102 and the bits of R95 and R97, written out bit by bit -/

theorem test_decode_csumCompute : decode (.command 0b00000000000000000000000000000001#32) = .ok .csumCompute := by decide
theorem test_decode_csumVerify : decode (.command 0b00000000000000000000000000000010#32) = .ok .csumVerify := by decide
theorem test_decode_hdrPack : decode (.command 0b00000000000000000000000000010000#32) = .ok .hdrPack := by decide
theorem test_decode_hdrUnpack : decode (.command 0b00000000000000000000000000010001#32) = .ok .hdrUnpack := by decide
theorem test_decode_pktEncode : decode (.command 0b00000000000000000000000000010010#32) = .ok .pktEncode := by decide
theorem test_decode_pktDecode : decode (.command 0b00000000000000000000000000010011#32) = .ok .pktDecode := by decide
theorem test_decode_srst : decode (.command 0b00000000000000000000000011111111#32) = .ok .srst := by decide
theorem test_decode_kSyn : decode (.flags 0b00000001#8) = .ok (.kSyn 0x01) := by decide
theorem test_decode_kSynack : decode (.flags 0b00000101#8) = .ok (.kSynack 0x05) := by decide
theorem test_decode_kAck : decode (.flags 0b00000100#8) = .ok (.kAck 0x04) := by decide
theorem test_decode_kFin : decode (.flags 0b00001000#8) = .ok (.kFin 0x08) := by decide
theorem test_decode_kFinack : decode (.flags 0b00010000#8) = .ok (.kFinack 0x10) := by decide
theorem test_decode_kNack : decode (.flags 0b01000000#8) = .ok (.kNack 0x40) := by decide
theorem test_decode_kData : decode (.flags 0b10000000#8) = .ok (.kData 0x80) := by decide

/-- T-60-1, T-60-2: no other word is a command, not even when bits 7:0 hold a legal opcode. -/
theorem test_decode_illegal :
    [(0x00000000 : Word), 0x03, 0x0F, 0x14, 0x80, 0xFE, 0x00000100, 0x00000101, 0x000001FF, 0x80000001,
      0xFFFFFFFF].all (fun w => readings (.command w) == []) = true := by decide

/-- The rejection names the reason (R103). -/
theorem test_decode_reasons :
    decode (.command 0x00000101) = .error (.reservedBits 0x00000101) ∧
      decode (.command 0x03) = .error (.illegalOpcode 0x03) ∧ decode (.flags 0x22) = .error (.noKind 0x22) := by
  refine ⟨?_, ?_, ?_⟩ <;> rfl

/-- R97: the rows are not exclusive; `0x05` is read by three of them. -/
theorem test_readings_synack : readings (.flags 0x05) = [.kSynack 0x05, .kAck 0x05, .kSyn 0x05] := by decide

/-- The host's probe: the very next step from reset runs the row's instruction. -/
theorem test_withFetchWord :
    (State.reset.withFetchWord 32 0x12).inbox = [.wr 0 0x12] ∧
      (State.reset.withFetchWord 8 0x40).inbox = [.test .nack 0x40] := by decide

/-! ### The arithmetic: T-40 rows -/

/-- T-40-9: the fold needs two passes. -/
theorem test_fold_two_passes : fold 0x1FFFF = 1 := by decide

/-- T-40-12 with both pads. -/
theorem test_compute_odd :
    compute .zext [0x12, 0x34, 0x56, 0x78, 0x9A] = 0x96B9 ∧
      compute .rfcHigh [0x12, 0x34, 0x56, 0x78, 0x9A] = 0xFD52 := by decide

/-- T-40-19d, e, f: both zeros verify, no other value does. -/
theorem test_verify_zeros :
    verify .zext [0xFF, 0xFF] 0x0000 = true ∧ verify .zext [0xFF, 0xFF] 0xFFFF = true ∧
      verify .zext [0xFF, 0xFF] 0x0001 = false := by decide

/-! ### The commands -/

/-- T-40-7. -/
theorem test_csumCompute :
    seen (exec .csumCompute (frame [0x00, 0x01, 0xF2, 0x03, 0xF4, 0xF5, 0xF6, 0xF7])) (fun t => (t.acc, t.res)) =
      some (0x0002DDF0, 0x220D) := by decide

/-- T-40-14 with `RFC_HIGH`. -/
theorem test_csumCompute_high :
    seen (exec .csumCompute (frameHigh [0x61, 0x62, 0x63])) (fun t => (t.acc, t.res)) = some (0x0000C462, 0x3B9D) := by
  decide

/-- T-40-18a. -/
theorem test_csumVerify :
    seen (exec .csumVerify { frame [0x00, 0x01, 0xF2, 0x03, 0xF4, 0xF5, 0xF6, 0xF7] with cks := 0x220D })
      (fun t => (t.acc, t.res, t.valid)) = some (0x0002FFFD, 0xFFFF, true) := by decide

/-- T-40-18c: bit 15 of the checksum flipped. -/
theorem test_csumVerify_bad :
    seen (exec .csumVerify { frame [0x00, 0x01, 0xF2, 0x03, 0xF4, 0xF5, 0xF6, 0xF7] with cks := 0xA20D })
      (fun t => (t.acc, t.res, t.valid)) = some (0x00037FFD, 0x8000, false) := by decide

/-- T-41-30: the payload stays unwritten. -/
theorem test_hdrPack :
    seen (exec .hdrPack { State.reset with seq := 0x1234, cks := 0xBE3F, flg := 0x80, plen := 4 })
      (fun t => (t.buf, t.len, t.statusWord, t.acc)) =
      some ([(0, 0x12), (1, 0x34), (2, 0xBE), (3, 0x3F), (4, 0x80)], 9, 0, 0) := by decide

/-- T-41-36, T-60-6: 59801 is too long. -/
theorem test_hdrPack_plen :
    seen (exec .hdrPack { State.reset with plen := 59801 }) (fun t => (t.buf, t.len, t.statusWord)) =
      some ([], 0, 0x34) := by decide

/-- T-41-33: no fault although the checksum is wrong. -/
theorem test_hdrUnpack :
    seen (exec .hdrUnpack (frame [0xA1, 0xB2, 0xC3, 0xD4, 0xE5, 0x00, 0x00]))
      (fun t => (t.seq, t.cks, t.flg, t.plen, t.statusWord)) = some (0xA1B2, 0xC3D4, 0xE5, 2, 0) := by decide

/-- T-41-25: a runt. -/
theorem test_hdrUnpack_runt :
    seen (exec .hdrUnpack { frame [0x00, 0x01, 0xFF, 0x7E] with seq := 0x0055, cks := 0x1111 })
      (fun t => (t.seq, t.cks, t.statusWord)) = some (0x0055, 0x1111, 0x2) := by decide

/-- T-41-6. -/
theorem test_pktEncode :
    seen (exec .pktEncode (payload 0x0001 0x80 [0x48, 0x69])) (fun t => (t.buf, t.cks, t.len, t.acc)) =
      some ([(0, 0x00), (1, 0x01), (2, 0x7F), (3, 0x4D), (4, 0x80), (5, 0x48), (6, 0x69)], 0x7F4D, 7, 0x80B2) := by
  decide

/-- T-42-9: the frame built directly after reset. -/
theorem test_pktEncode_reset :
    seen (exec .pktEncode State.reset) (fun t => (t.buf, t.len, t.cks, t.res, t.acc)) =
      some ([(0, 0x00), (1, 0x00), (2, 0xFF), (3, 0xFF), (4, 0x00)], 5, 0xFFFF, 0xFFFF, 0) := by decide

/-- T-41-16: SYN+ACK with tag "OK". -/
theorem test_pktDecode :
    seen (exec .pktDecode (frame [0x00, 0x00, 0xFA, 0x65, 0x05, 0x4F, 0x4B]))
      (fun t => (t.statusWord, t.kind, t.plen, t.acc, t.res)) = some (0x1, 0x07, 2, 0xFFFF, 0xFFFF) := by decide

/-- T-41-24: a corrupted frame keeps the fields but not the kind. -/
theorem test_pktDecode_corrupt :
    seen (exec .pktDecode (frame [0x00, 0x01, 0x7F, 0x4D, 0x80, 0x40, 0x69]))
      (fun t => (t.seq, t.cks, t.flg, t.acc, t.res, t.statusWord, t.kind)) =
      some (0x0001, 0x7F4D, 0x80, 0xFFF7, 0xFFF7, 0, 0) := by decide

/-- T-60-16: `SRST` ends the faulted condition. -/
theorem test_srst :
    seen (exec .srst { faulted with seq := 7, acc := 9 }) (fun t => (t.seq, t.acc, t.statusWord)) = some (0, 0, 0) := by
  decide

/-- R171: the flag alone decides. -/
theorem test_kSyn :
    seen (exec (.kSyn 0xFD) State.reset) State.answer = some (.truth true) ∧
      seen (exec (.kSyn 0x02) State.reset) State.answer = some (.truth false) := by decide

/-- R172: both flags, and not the reserved flag `SYN_ACK`. -/
theorem test_kSynack :
    seen (exec (.kSynack 0x05) State.reset) State.answer = some (.truth true) ∧
      seen (exec (.kSynack 0x02) State.reset) State.answer = some (.truth false) ∧
      seen (exec (.kSynack 0x04) State.reset) State.answer = some (.truth false) := by decide

/-- T-41-40: `84` is an `ACK` too. -/
theorem test_kAck : seen (exec (.kAck 0x84) State.reset) State.answer = some (.truth true) := by decide

/-- T-41-40: `0C` is a `FIN`. -/
theorem test_kFin : seen (exec (.kFin 0x0C) State.reset) State.answer = some (.truth true) := by decide

/-- T-41-18: FIN and ACK are not FIN-ACK. -/
theorem test_kFinack : seen (exec (.kFinack 0x0C) State.reset) State.answer = some (.truth false) := by decide

/-- T-41-40: `40` is a `NACK`; `BF` is none. -/
theorem test_kNack :
    seen (exec (.kNack 0x40) State.reset) State.answer = some (.truth true) ∧
      seen (exec (.kNack 0xBF) State.reset) State.answer = some (.truth false) := by decide

/-- T-41-40: `84` is `DATA`. -/
theorem test_kData : seen (exec (.kData 0x84) State.reset) State.answer = some (.truth true) := by decide

/-- T-41-40. -/
theorem test_kindBits :
    ([0x00, 0x01, 0x02, 0x04, 0x05, 0x07, 0x08, 0x0C, 0x10, 0x18, 0x20, 0x22, 0x40, 0x80, 0x84] : List Byte).map kindBits =
      [0x00, 0x01, 0x00, 0x04, 0x07, 0x07, 0x08, 0x0C, 0x10, 0x18, 0x00, 0x00, 0x20, 0x40, 0x44] := by decide

/-! ### The port -/

/-- T-42-2. -/
theorem test_cap :
    seen (step (waiting State.reset [.rd 0x28])) State.answer = some (.word 0x0000E998) ∧
      seen (step (waiting (frameHigh []) [.rd 0x28])) State.answer = some (.word 0x0001E998) := by decide

/-- T-42-5: the last byte of the buffer is at `1E99C`. -/
theorem test_writeByte :
    seen (step (waiting State.reset [.wrb 0x1E99C 0xCD])) (fun t => (t.buf, t.err)) = some ([(59804, 0xCD)], false) := by
  decide

/-- T-60-13: `1E99D` is no byte of it. -/
theorem test_writeByte_beyond :
    seen (step (waiting State.reset [.wrb 0x1E99D 0x00])) (fun t => (t.buf, t.statusWord)) = some ([], 0x44) := by decide

/-- T-60-8: `CMD` is not readable. -/
theorem test_read_cmd :
    seen (step (waiting State.reset [.rd 0x00])) (fun t => (t.answer, t.statusWord)) = some (.word 0, 0x44) := by decide

/-- T-60-10: no register at `0x02` or `0x2C`. -/
theorem test_read_hole :
    seen (step (waiting State.reset [.rd 0x02])) State.statusWord = some 0x44 ∧
      seen (step (waiting State.reset [.rd 0x2C])) State.statusWord = some 0x44 := by decide

/-- T-60-11, T-60-12: the size of an access is that of its region. -/
theorem test_wrong_size :
    seen (step (waiting State.reset [.rdb 0x08])) (fun t => (t.answer, t.statusWord)) = some (.byte 0, 0x44) ∧
      seen (step (waiting State.reset [.wr 0x10000 0xFF])) (fun t => (t.buf, t.statusWord)) = some ([], 0x44) := by
  decide

/-- T-60-17: the result group survives a fault. -/
theorem test_fault_keeps_results :
    seen (step (waiting { State.reset with valid := true, kind := 0x40, res := 0xFFFF, acc := 0xFFFF } [.wr 0x00 0x00]))
      (fun t => (t.statusWord, t.kind)) = some (0x15, 0x40) := by decide

/-- R105, R106: the pseudo-instructions as lists of transactions. -/
theorem test_hostFrame :
    hostFrame [0xAB, 0xCD] = [.wrb 0x10000 0xAB, .wrb 0x10001 0xCD, .wr 0x18 2] := by decide

/-! ### Witnesses: concrete states and operands that meet the hypotheses of each statement -/

/-- 59805 bytes `FF`: the whole buffer of the reference configuration (T-40-16). -/
def full : List Byte := List.replicate 59805 0xFF

/-- 59800 bytes `FF`: the largest payload (T-41-23). -/
def fullPayload : List Byte := List.replicate 59800 0xFF

/-- `LEN` = 59806, one more than `BUF_SIZE` (T-60-4). -/
def overLen : State := { State.reset with len := 59806 }

/-- `PLEN` = 59801, one more than `MAX_PACKET_SIZE` (T-60-6). -/
def overPlen : State := { State.reset with plen := 59801 }

/-- `LEN` = 4 (T-41-25). -/
def runt : State := frame [0x00, 0x01, 0xFF, 0x7E]

/-- The frame of T-41-8, `LEN` = 5: the shortest with a header. -/
def shortest : State := frame [0x00, 0x01, 0xFF, 0x7E, 0x80]

theorem full_length : full.length = 59805 := List.length_replicate

theorem fullPayload_length : fullPayload.length = 59800 := List.length_replicate

theorem full_len : (frame full).len.toNat = 59805 := by simp [frame, full_length]

theorem fullPayload_plen (seq : Half) (flg : Byte) : (payload seq flg fullPayload).plen.toNat = 59800 := by
  simp [payload, fullPayload_length]

theorem frame_holds (b : List Byte) : (frame b).buf.HoldsAt 0 b := storeBytes_holds [] 0 b

theorem payload_holds (seq : Half) (flg : Byte) (b : List Byte) : (payload seq flg b).buf.HoldsAt 5 b :=
  storeBytes_holds [] 5 b

/-- What the reading commands assume of a frame in the buffer, at the largest `LEN`. -/
theorem full_meets :
    (frame full).err = false ∧ 5 ≤ (frame full).len.toNat ∧ (frame full).len.toNat ≤ (frame full).bufSize ∧
      full.length = (frame full).len.toNat ∧ (frame full).buf.HoldsAt 0 full := by
  refine ⟨rfl, ?_, ?_, ?_, frame_holds _⟩ <;> rw [full_len]
  · decide
  · decide
  · exact full_length

/-- The same at the smallest `LEN` with a header. -/
theorem shortest_meets :
    shortest.err = false ∧ shortest.len.toNat = 5 ∧ shortest.len.toNat ≤ shortest.bufSize ∧
      shortest.buf.HoldsAt 0 [0x00, 0x01, 0xFF, 0x7E, 0x80] := ⟨rfl, rfl, by decide, frame_holds _⟩

/-- The same at `LEN` = 0. -/
theorem empty_meets :
    (frame []).err = false ∧ (frame []).len.toNat ≤ (frame []).bufSize ∧ ([] : List Byte).length = (frame []).len.toNat ∧
      (frame []).buf.HoldsAt 0 [] := ⟨rfl, by decide, rfl, frame_holds _⟩

/-- What the marshalling commands assume of a payload in the buffer, at the largest `PLEN`. -/
theorem fullPayload_meets :
    (payload 0xFFFF 0xFF fullPayload).err = false ∧
      (payload 0xFFFF 0xFF fullPayload).plen.toNat ≤ (payload 0xFFFF 0xFF fullPayload).cfg.maxPacketSize.val ∧
      fullPayload.length = (payload 0xFFFF 0xFF fullPayload).plen.toNat ∧
      (payload 0xFFFF 0xFF fullPayload).buf.HoldsAt 5 fullPayload := by
  refine ⟨rfl, ?_, ?_, payload_holds _ _ _⟩ <;> rw [fullPayload_plen]
  · decide
  · exact fullPayload_length

theorem overLen_meets : overLen.err = false ∧ overLen.bufSize < overLen.len.toNat := by decide

theorem overPlen_meets : overPlen.err = false ∧ overPlen.cfg.maxPacketSize.val < overPlen.plen.toNat := by decide

theorem runt_meets : runt.err = false ∧ runt.len.toNat < 5 := by decide

theorem witness_DecodeEncodeAgree :
    (Instr.srst.WellFormed = true ∧ encode .srst = .command 0xFF) ∧ decode (.flags 0x80) = .ok (.kData 0x80) ∧
      Instr.kSyn 0x05 ∈ readings (.flags 0x05) ∧ Instr.kData 0xFF ∈ readings (.flags 0xFF) := by decide

theorem witness_StepRunsTheDecodedInstruction :
    ((waiting State.reset [.wr 0x00 0x12]).inbox = .wr 0x00 0x12 :: [] ∧ decodeCommand 0x12 = .ok .pktEncode) ∧
      (waiting State.reset [.test .ack 0x84]).inbox = .test .ack 0x84 :: [] ∧
      decodeTableWord 32 0xFF = some .srst ∧ decodeTableWord 8 0x10 = some (.kFinack 0x10) := by
  refine ⟨⟨rfl, by decide⟩, rfl, by decide, by decide⟩

/-- The values where the clauses meet: 0, the largest unfolded, the smallest folded, the largest. -/
theorem witness_FoldIsTheEndAroundFold :
    (0 < 2 ^ 32 ∧ fold 0 = 0) ∧ (0xFFFF < 0x10000 ∧ fold 0xFFFF = 0xFFFF) ∧ (0x10000 ≤ 0x10000 ∧ fold 0x10000 = 1) ∧
      (0xFFFFFFFF < 2 ^ 32 ∧ fold 0xFFFFFFFF = 0xFFFF) := by decide

/-- T-40-17: 65535 bytes. -/
theorem witness_RunningSumStaysBelowItsBound : (List.replicate 65535 (0xFF : Byte)).length ≤ 65535 := by
  rw [List.length_replicate]

theorem witness_EndAroundCarryRefinesTheFoldedSum :
    (List.replicate 65535 (0xFF : Byte)).length ≤ 65535 ∧ ([] : List Byte).length ≤ 65535 :=
  ⟨witness_RunningSumStaysBelowItsBound, by decide⟩

theorem witness_VerifyAcceptsTheComputedChecksum :
    (List.replicate 65535 (0xFF : Byte)).length ≤ 65535 ∧ ([] : List Byte).length ≤ 65535 :=
  witness_EndAroundCarryRefinesTheFoldedSum

theorem witness_ChecksumInPlaceAddsItself :
    (List.replicate 65530 (0xFF : Byte)).length ≤ 65530 ∧ ([] : List Byte).length ≤ 65530 :=
  ⟨by rw [List.length_replicate], by decide⟩

/-- One byte string for each of the three clauses (T-40-19). -/
theorem witness_VerifyAcceptsBothZeros :
    wsum .zext [] = 0 ∧ (0 < wsum .zext [0xFF, 0xFF] ∧ 65535 ∣ wsum .zext [0xFF, 0xFF]) ∧
      ¬ 65535 ∣ wsum .zext [0xFF, 0xFE] := by decide

/-- T-40-22. -/
theorem witness_WordSwapIsNotDetected :
    ([] : List Byte).length % 2 = 0 ∧ [(0xBE : Byte), 0x3F, 0x80, 0xDE].length % 2 = 0 := by decide

/-- T-40-5's string with its checksum, and both ends of each range. -/
theorem witness_SingleBitFlipsAreDetected :
    verify .zext [0xAB, 0xCD] 0x5432 = true ∧ 0 < [(0xAB : Byte), 0xCD].length ∧ 1 < [(0xAB : Byte), 0xCD].length ∧
      verify .zext [0xAB ^^^ (1#8 <<< 7), 0xCD] 0x5432 = false ∧
      verify .zext [0xAB, 0xCD ^^^ (1#8 <<< 0)] 0x5432 = false ∧
      verify .zext [0xAB, 0xCD] (0x5432 ^^^ (1#16 <<< 15)) = false := by decide

/-- Every clause of the two checksum commands: faulted, `LEN` one too large, the largest and the smallest `LEN`. -/
theorem witness_CsumComputeMeaning :
    faulted.err = true ∧ (overLen.err = false ∧ overLen.bufSize < overLen.len.toNat) ∧
      ((frame full).err = false ∧ (frame full).len.toNat ≤ (frame full).bufSize) ∧
      (State.reset.err = false ∧ State.reset.len.toNat ≤ State.reset.bufSize) :=
  ⟨rfl, overLen_meets, ⟨full_meets.1, full_meets.2.2.1⟩, rfl, by decide⟩

theorem witness_CsumVerifyMeaning :
    faulted.err = true ∧ (overLen.err = false ∧ overLen.bufSize < overLen.len.toNat) ∧
      ((frame full).err = false ∧ (frame full).len.toNat ≤ (frame full).bufSize) ∧
      (State.reset.err = false ∧ State.reset.len.toNat ≤ State.reset.bufSize) := witness_CsumComputeMeaning

/-- `PLEN` at both sides of `MAX_PACKET_SIZE` (T-41-35, T-41-36). -/
theorem witness_HdrPackMeaning :
    faulted.err = true ∧ (overPlen.err = false ∧ overPlen.cfg.maxPacketSize.val < overPlen.plen.toNat) ∧
      ((payload 0xFFFF 0xFF fullPayload).err = false ∧
        (payload 0xFFFF 0xFF fullPayload).plen.toNat ≤ (payload 0xFFFF 0xFF fullPayload).cfg.maxPacketSize.val) :=
  ⟨rfl, overPlen_meets, fullPayload_meets.1, fullPayload_meets.2.1⟩

theorem witness_HdrUnpackMeaning :
    faulted.err = true ∧ (overLen.err = false ∧ overLen.bufSize < overLen.len.toNat) ∧
      (runt.err = false ∧ runt.len.toNat < 5) ∧
      (shortest.err = false ∧ 5 ≤ shortest.len.toNat ∧ shortest.len.toNat ≤ shortest.bufSize) ∧
      ((frame full).err = false ∧ 5 ≤ (frame full).len.toNat ∧ (frame full).len.toNat ≤ (frame full).bufSize) :=
  ⟨rfl, overLen_meets, runt_meets, ⟨shortest_meets.1, shortest_meets.2.1.ge, shortest_meets.2.2.1⟩, full_meets.1,
    full_meets.2.1, full_meets.2.2.1⟩

theorem witness_PktEncodeMeaning :
    faulted.err = true ∧ (overPlen.err = false ∧ overPlen.cfg.maxPacketSize.val < overPlen.plen.toNat) ∧
      ((payload 0xFFFF 0xFF fullPayload).err = false ∧
        (payload 0xFFFF 0xFF fullPayload).plen.toNat ≤ (payload 0xFFFF 0xFF fullPayload).cfg.maxPacketSize.val) :=
  witness_HdrPackMeaning

theorem witness_PktDecodeMeaning :
    faulted.err = true ∧ (overLen.err = false ∧ overLen.bufSize < overLen.len.toNat) ∧
      (runt.err = false ∧ runt.len.toNat < 5) ∧
      (shortest.err = false ∧ 5 ≤ shortest.len.toNat ∧ shortest.len.toNat ≤ shortest.bufSize) ∧
      ((frame full).err = false ∧ 5 ≤ (frame full).len.toNat ∧ (frame full).len.toNat ≤ (frame full).bufSize) :=
  witness_HdrUnpackMeaning

/-- A decoded word that is not `SRST` in a faulted state, and a faulted state whose step ends with `ERR` = 0. -/
theorem witness_SrstMeaning :
    (decodeCommand 0x12 = .ok .pktEncode ∧ Instr.pktEncode ≠ .srst ∧ faulted.err = true) ∧
      ((waiting faulted [.wr 0x00 0xFF]).err = true ∧ ∃ t, step (waiting faulted [.wr 0x00 0xFF]) = .next t ∧ t.err = false) :=
  ⟨⟨by decide, by decide, rfl⟩, rfl, _, rfl, rfl⟩

theorem witness_KindVectorIsEvaluatedByDecodeOnly :
    Instr.hdrPack ≠ .pktDecode ∧ ∃ t, exec .hdrPack State.reset = .next t := ⟨by decide, _, rfl⟩

/-- Executed, and stopped by a fault or by the faulted condition. -/
theorem witness_ChecksumCommandsFrame :
    (State.reset.err = false ∧ State.reset.len.toNat ≤ State.reset.bufSize) ∧ faulted.err = true ∧
      overLen.bufSize < overLen.len.toNat := ⟨⟨rfl, by decide⟩, rfl, overLen_meets.2⟩

theorem witness_UnmarshalCommandsFrame :
    (shortest.err = false ∧ shortest.len.toNat ≤ shortest.bufSize) ∧ faulted.err = true ∧
      overLen.bufSize < overLen.len.toNat ∧ runt.len.toNat < 5 :=
  ⟨⟨rfl, by decide⟩, rfl, overLen_meets.2, runt_meets.2⟩

theorem witness_MarshalCommandsFrame :
    (State.reset.err = false ∧ State.reset.plen.toNat ≤ State.reset.cfg.maxPacketSize.val) ∧ faulted.err = true ∧
      overPlen.cfg.maxPacketSize.val < overPlen.plen.toNat := ⟨⟨rfl, by decide⟩, rfl, overPlen_meets.2⟩

/-- A step that stores a payload byte, at the first index of the payload. -/
theorem witness_OnlyTheHostWritesThePayload :
    5 ≤ 5 ∧ ∃ t, step (waiting State.reset [.wrb 0x10005 0x41]) = .next t ∧ t.buf.byteAt 5 = some 0x41 :=
  ⟨by decide, of_seen (f := fun t => t.buf.byteAt 5) (by decide)⟩

theorem witness_HdrPackInvertsHdrUnpack :
    (∃ t, exec .hdrPack State.reset = .next t) ∧
      (shortest.err = false ∧ 5 ≤ shortest.len.toNat ∧ shortest.len.toNat ≤ shortest.bufSize ∧
        shortest.buf.HoldsAt 0 [0x00, 0x01, 0xFF, 0x7E, 0x80]) :=
  ⟨⟨_, rfl⟩, shortest_meets.1, shortest_meets.2.1.ge, shortest_meets.2.2⟩

/-- The largest payload and none. -/
theorem witness_PktEncodeEqualsThePrimitives :
    ((payload 0xFFFF 0xFF fullPayload).err = false ∧
      (payload 0xFFFF 0xFF fullPayload).plen.toNat ≤ (payload 0xFFFF 0xFF fullPayload).cfg.maxPacketSize.val ∧
      fullPayload.length = (payload 0xFFFF 0xFF fullPayload).plen.toNat ∧
      (payload 0xFFFF 0xFF fullPayload).buf.HoldsAt 5 fullPayload) ∧
    (State.reset.err = false ∧ State.reset.plen.toNat ≤ State.reset.cfg.maxPacketSize.val ∧
      ([] : List Byte).length = State.reset.plen.toNat ∧ State.reset.buf.HoldsAt 5 []) :=
  ⟨fullPayload_meets, rfl, by decide, rfl, payload_holds 0 0 []⟩

theorem witness_EncodeDecodeRoundTrip :
    ((payload 0xFFFF 0xFF fullPayload).err = false ∧
      (payload 0xFFFF 0xFF fullPayload).plen.toNat ≤ (payload 0xFFFF 0xFF fullPayload).cfg.maxPacketSize.val ∧
      fullPayload.length = (payload 0xFFFF 0xFF fullPayload).plen.toNat ∧
      (payload 0xFFFF 0xFF fullPayload).buf.HoldsAt 5 fullPayload) ∧
    (State.reset.err = false ∧ State.reset.plen.toNat ≤ State.reset.cfg.maxPacketSize.val ∧
      ([] : List Byte).length = State.reset.plen.toNat ∧ State.reset.buf.HoldsAt 5 []) := witness_PktEncodeEqualsThePrimitives

theorem witness_PktDecodeEqualsUnpackAndVerify :
    (frame full).err = false ∧ 5 ≤ (frame full).len.toNat ∧ (frame full).len.toNat ≤ (frame full).bufSize ∧
      full.length = (frame full).len.toNat ∧ (frame full).buf.HoldsAt 0 full := full_meets

theorem witness_ComputeThenVerifyIsValid :
    ((frame full).err = false ∧ (frame full).len.toNat ≤ (frame full).bufSize ∧
      full.length = (frame full).len.toNat ∧ (frame full).buf.HoldsAt 0 full) ∧
    ((frame []).err = false ∧ (frame []).len.toNat ≤ (frame []).bufSize ∧ ([] : List Byte).length = (frame []).len.toNat ∧
      (frame []).buf.HoldsAt 0 []) := ⟨⟨full_meets.1, full_meets.2.2⟩, empty_meets⟩

/-- T-41-8: a valid frame of kind `DATA`. -/
theorem witness_AcceptedFramesAreValidAndOfTheirKind :
    (shortest.err = false ∧ shortest.len.toNat ≤ shortest.bufSize ∧
      [(0x00 : Byte), 0x01, 0xFF, 0x7E, 0x80] = 0x00 :: 0x01 :: 0xFF :: 0x7E :: 0x80 :: [] ∧
      [(0x00 : Byte), 0x01, 0xFF, 0x7E, 0x80].length = shortest.len.toNat ∧
      shortest.buf.HoldsAt 0 [0x00, 0x01, 0xFF, 0x7E, 0x80]) ∧
    fold (wsum .zext [0x00, 0x01, 0xFF, 0x7E, 0x80]) = 0xFFFF ∧ Kind.data ∈ kindsOf 0x80 :=
  ⟨⟨shortest_meets.1, shortest_meets.2.2.1, rfl, rfl, shortest_meets.2.2.2⟩, by decide, by decide⟩

/-- Each clause: `SRST` and another word while faulted; a command word, an illegal word, each register, a hole, a read-only
register and a buffer address. -/
theorem witness_HostWriteMeaning :
    (waiting faulted [.wr 0x00 0xFF]).inbox = .wr 0x00 0xFF :: [] ∧ (waiting faulted [.wr 0x00 0xFF]).err = true ∧
      ¬ ((0x00 : Addr) = 0x00 ∧ (0x12 : Word) = 0x000000FF) ∧ State.reset.err = false ∧
      ((0x13 : Word), Instr.pktDecode) ∈ commandTable ∧ (∀ i, ((0x1FF : Word), i) ∉ commandTable) ∧
      (0x02 : Addr) ∉ writable ∧ (0x04 : Addr) ∉ writable ∧ (0x1C : Addr) ∉ writable ∧ (0x28 : Addr) ∉ writable ∧
      (0x2C : Addr) ∉ writable ∧ (0x10000 : Addr) ∉ writable := by
  refine ⟨rfl, rfl, by decide, rfl, by decide, ?_, by decide, by decide, by decide, by decide, by decide, by decide⟩
  simp [commandTable]

theorem witness_HostReadMeaning :
    (waiting State.reset [.rd 0x28]).inbox = .rd 0x28 :: [] ∧ ((0x28 : Addr), 59800) ∈ readable State.reset ∧
      ((0x04 : Addr), 20) ∈ readable faulted ∧ (0x00 : Addr) ∉ (readable State.reset).map Prod.fst ∧
      (0x2C : Addr) ∉ (readable State.reset).map Prod.fst ∧ faulted.err = true ∧ State.reset.err = false := by decide

/-- The first and the last buffer address, and the addresses beside them (T-42-5, T-60-13). -/
theorem witness_HostWriteByteMeaning :
    (waiting State.reset [.wrb 0x10000 0xAB]).inbox = .wrb 0x10000 0xAB :: [] ∧ inBuffer State.reset 0x10000 ∧
      inBuffer State.reset 0x1E99C ∧ ¬ inBuffer State.reset 0x1E99D ∧ ¬ inBuffer State.reset 0x0FFFF ∧
      faulted.err = true ∧ State.reset.err = false := by
  unfold inBuffer; decide

theorem witness_HostReadByteMeaning :
    (waiting State.reset [.rdb 0x10000]).inbox = .rdb 0x10000 :: [] ∧ inBuffer shortest 0x10000 ∧
      shortest.buf.byteAt ((0x10000 : Addr).toNat - 0x10000) = some 0x00 ∧ inBuffer shortest 0x1E99C ∧
      ¬ inBuffer shortest 0x1E99D ∧ ¬ inBuffer shortest 0x08 ∧ faulted.err = true ∧ shortest.err = false := by
  unfold inBuffer; decide

/-- Violations of each transaction, in and out of the faulted condition. -/
theorem witness_AccessViolations :
    (waiting State.reset [.wr 0x04 0]).inbox = .wr 0x04 0 :: [] ∧ ¬ permitted State.reset (.wr 0x04 0) ∧
      ¬ permitted State.reset (.rd 0x00) ∧ ¬ permitted State.reset (.rd 0x10000) ∧
      ¬ permitted State.reset (.wrb 0x1E99D 0) ∧ ¬ permitted State.reset (.rdb 0x08) ∧
      State.reset.err = false ∧ faulted.err = true := by
  unfold permitted inBuffer; decide

/-- T-42-4. -/
theorem witness_RegisterWritesTruncate :
    ((0x10 : Addr), 8) ∈ [((0x08 : Addr), 16), (0x0C, 16), (0x10, 8), (0x14, 16), (0x18, 16)] ∧
      (waiting State.reset [.wr 0x10 0x1FF, .rd 0x10]).err = false ∧
      (waiting State.reset [.wr 0x10 0x1FF, .rd 0x10]).inbox = .wr 0x10 0x1FF :: .rd 0x10 :: [] := by decide

theorem witness_CapShowsTheConfiguration :
    (waiting State.reset [.wr 0x28 1]).inbox = .wr 0x28 1 :: [] ∧
      (∃ t, step (waiting State.reset [.wr 0x28 1]) = .next t) ∧
      ∃ t, step (waiting faulted [.wr 0x28 1]) = .next t := ⟨rfl, ⟨_, rfl⟩, _, rfl⟩

/-- Each row of the result table: a verdict, a runt, a header, a valid frame whose flags byte is written, and a host access
that is no command. -/
theorem witness_EveryExecutedCommandRewritesTheResults :
    ((0x13 : Word), Instr.pktDecode) ∈ commandTable ∧ shortest.err = false ∧ 5 ≤ shortest.len.toNat ∧
      (∃ t, exec .pktDecode shortest = .next t ∧ t.err = false ∧ t.valid = true ∧ shortest.buf.byteAt 4 = some 0x80) ∧
      (∃ t, exec .pktDecode runt = .next t ∧ t.err = false ∧ runt.len.toNat < 5) ∧
      (∃ t, exec .hdrUnpack runt = .next t ∧ t.err = false) ∧ (∃ t, exec .csumVerify runt = .next t ∧ t.err = false) ∧
      (∃ t, exec .srst faulted = .next t ∧ t.err = false) ∧
      (∀ w, HostStep.wr 0x08 9 ≠ .wr 0x00 w) ∧ ∃ t, step (waiting State.reset [.wr 0x08 9]) = .next t := by
  refine ⟨by decide, rfl, by decide, ⟨_, rfl, rfl, ?_, ?_⟩, ⟨_, rfl, rfl, by decide⟩, ⟨_, rfl, rfl⟩, ⟨_, rfl, rfl⟩,
    ⟨_, rfl, rfl⟩, by simp, _, rfl⟩ <;> decide

/-- A second fault's cause (a read of `CMD`) in the faulted condition (T-60-14). -/
theorem witness_FirstFaultIsKept :
    State.reset.err = false ∧ faulted.err = true ∧ (∃ t, step (waiting faulted [.rd 0x00]) = .next t) ∧
      ∀ rest, (waiting faulted [.rd 0x00]).inbox ≠ .wr 0x00 0x000000FF :: rest :=
  ⟨rfl, rfl, ⟨_, rfl⟩, by simp [waiting]⟩

theorem witness_FaultedConditionIgnoresWrites :
    (waiting faulted [.wr 0x08 7]).inbox = .wr 0x08 7 :: [] ∧ faulted.err = true ∧
      ((0x04 : Addr), 20) ∈ readable faulted ∧ inBuffer shortest 0x10000 ∧
      shortest.buf.byteAt ((0x10000 : Addr).toNat - 0x10000) = some 0x00 ∧ ¬ isResetWrite (.wr 0x08 7) ∧
      isResetWrite (.wr 0x00 0xFF) := by
  unfold inBuffer isResetWrite; decide

/-- Each cause at its boundary, and a step that faults. -/
theorem witness_FaultsAreCompleteAndPrecise :
    causes State.reset (.rd 0x00) 4 ∧ causes State.reset (.wr 0x00 0x1FF) 1 ∧ causes overLen (.wr 0x00 0x01) 2 ∧
      causes overPlen (.wr 0x00 0x12) 3 ∧
      ∃ t, step (waiting State.reset [.rd 0x00]) = .next t ∧ t.err = true := by
  refine ⟨.inl ⟨rfl, ?_⟩, .inr ⟨_, rfl, .inl ⟨rfl, ?_⟩⟩, .inr ⟨_, rfl, .inr (.inl ⟨rfl, by decide, by decide⟩)⟩,
    .inr ⟨_, rfl, .inr (.inr ⟨rfl, by decide, by decide⟩)⟩, _, rfl, rfl⟩
  · unfold permitted; decide
  · simp [commandTable]

theorem witness_EveryStepCompletes :
    (waiting State.reset [.rd 0x04]).inbox = .rd 0x04 :: [] ∧ State.reset.inbox = [] := ⟨rfl, rfl⟩

/-- A state with a verdict in it that meets the invariant, and its step (T-41-8, decoded). -/
def decoded : State :=
  { shortest with
    seq := 0x0001, cks := 0xFF7E, flg := 0x80, acc := 0x0000FFFF, res := 0xFFFF, valid := true, kind := 0x40,
    inbox := [.wrb 0x1E99C 0xCD] }

theorem witness_EveryStepKeepsTheInvariant : decoded.Inv ∧ ∃ t, step decoded = .next t := by
  refine ⟨⟨by decide, by decide, by decide, by decide, by decide, by decide, by decide, by decide, ⟨0x80, by decide⟩,
    by decide⟩, _, rfl⟩

end Sys2Proof.Tests
end

section
/-! SUPPORT. The statements about the state as a whole (`10_state.md`): `CAP`, the result group, the first fault, the
faulted condition, the reset values. -/

namespace Sys2Proof.Machine
open Sys2Proof.Certificates

/-! ### The registers as the numbers they read as (R31, R41, R62) -/

/-- A concatenation as a number: the left part stands above the right one. -/
theorem append_toNat {m n : Nat} (x : BitVec m) (y : BitVec n) : (x ++ y).toNat = x.toNat * 2 ^ n + y.toNat := by
  rw [BitVec.toNat_append, ← Nat.shiftLeft_add_eq_or_of_lt y.isLt, Nat.shiftLeft_eq]

theorem capWord_toNat (s : State) :
    s.capWord.toNat = s.cfg.maxPacketSize.val + (if s.cfg.oddPad = .rfcHigh then 0x10000 else 0) := by
  have hm : s.cfg.maxPacketSize.val % 2 ^ 16 = s.cfg.maxPacketSize.val := Nat.mod_eq_of_lt (by omega)
  rw [State.capWord, append_toNat, append_toNat, BitVec.toNat_ofNat s.cfg.maxPacketSize.val, hm]
  cases s.cfg.oddPad <;> simp [Nat.add_comm]

theorem statusWord_toNat (s : State) :
    s.statusWord.toNat = s.valid.toNat + 2 * s.runt.toNat + 4 * s.err.toNat + 16 * s.ecode.toNat := by
  simp only [State.statusWord, append_toNat, BitVec.toNat_ofBool, BitVec.toNat_ofNat]
  omega

/-- Every row of the table of readable registers is a register with that address and that number. -/
theorem exists_readReg_of_mem_readable {s : State} {a : Addr} {n : Nat} (h : (a, n) ∈ readable s) :
    ∃ r v, regAt a = some r ∧ s.readReg r = some v ∧ v.toNat = n := by
  simp only [readable, List.mem_cons, Prod.mk.injEq, List.not_mem_nil, or_false] at h
  rcases h with h | h | h | h | h | h | h | h | h | h <;> obtain ⟨rfl, rfl⟩ := h
  · exact ⟨.status, _, rfl, rfl, statusWord_toNat s⟩
  · exact ⟨.seq, _, rfl, rfl, BitVec.toNat_setWidth_of_le (by decide)⟩
  · exact ⟨.cks, _, rfl, rfl, BitVec.toNat_setWidth_of_le (by decide)⟩
  · exact ⟨.flg, _, rfl, rfl, BitVec.toNat_setWidth_of_le (by decide)⟩
  · exact ⟨.plen, _, rfl, rfl, BitVec.toNat_setWidth_of_le (by decide)⟩
  · exact ⟨.len, _, rfl, rfl, BitVec.toNat_setWidth_of_le (by decide)⟩
  · exact ⟨.res, _, rfl, rfl, BitVec.toNat_setWidth_of_le (by decide)⟩
  · exact ⟨.acc, _, rfl, rfl, rfl⟩
  · exact ⟨.kind, _, rfl, rfl, BitVec.toNat_setWidth_of_le (by decide)⟩
  · exact ⟨.cap, _, rfl, rfl, capWord_toNat s⟩

@[simp] theorem taking_readReg (s : State) (rest : List HostStep) (r : Reg) :
    (s.taking rest).readReg r = s.readReg r := by cases r <;> rfl

@[simp] theorem taking_bufIndex (s : State) (rest : List HostStep) (a : Addr) :
    (s.taking rest).bufIndex a = s.bufIndex a := rfl

theorem bufIndex_of_inBuffer {s : State} {a : Addr} (h : inBuffer s a) : s.bufIndex a = some (a.toNat - 0x10000) :=
  if_pos h

@[simp] theorem softReset_statusWord (s : State) : (softReset s).statusWord = 0 := by
  rw [← BitVec.toNat_inj, statusWord_toNat]; rfl

/-- `CAP` shows nothing but the configuration. -/
theorem readReg_cap_congr {s t : State} (h : t.cfg = s.cfg) : t.readReg .cap = s.readReg .cap := by
  simp only [State.readReg, State.capWord, h]

/-! ### The host's accesses in and out of the faulted condition -/

theorem violation_of_clean {s : State} (h : s.err = false) (a : Answer) :
    violation s a = { s with err := true, ecode := 4, answer := a } := by
  rw [violation, raise_of_clean h]; rfl

theorem violation_of_faulted {s : State} (h : s.err = true) (a : Answer) : violation s a = s.answering a := by
  rw [violation, raise_of_faulted h]

theorem hostRead_of_readReg {s : State} {a : Addr} {r : Reg} {v : Word} (ha : regAt a = some r)
    (hr : s.readReg r = some v) : hostRead a s = .next (s.answering (.word v)) := by
  simp [hostRead, ha, hr]

theorem hostReadByte_of_bufIndex {s : State} {a : Addr} {i : Nat} (h : s.bufIndex a = some i) :
    hostReadByte a s = .next ((s.drawn 1).answering (.byte (readByte s.buf s.draws i))) := by
  simp [hostReadByte, h]

theorem hostWrite_faulted {s : State} {a : Addr} {v : Word} (he : s.err = true)
    (h : ¬ (a = 0x00 ∧ v = 0x000000FF)) : hostWrite a v s = .next s := by
  rw [hostWrite, if_pos he, if_neg h]

theorem hostWrite_srst_faulted {s : State} (he : s.err = true) :
    hostWrite 0x00 0x000000FF s = .next (softReset s) := by
  rw [hostWrite, if_pos he, if_pos ⟨rfl, rfl⟩]; rfl

theorem hostWriteByte_faulted {s : State} (he : s.err = true) (a : Addr) (v : Byte) :
    hostWriteByte a v s = .next s := if_pos he

theorem hostWrite_readOnly_clean {s : State} {r : Reg} {v : Word} (he : s.err = false) (hr : r ≠ .cmd)
    (hw : s.writeReg v r = none) : hostWrite r.addr v s = .next (violation s .nothing) := by
  simp [hostWrite, he, regAt_eq_some.2 rfl, writeSlot, hr, hw]

/-- A host step in the faulted condition: the `SRST` write, or one that keeps all but the model's own counter and
answer (R35). -/
theorem perform_faulted_cases {x : HostStep} {s t : State} (he : s.err = true) (h : perform x s = .next t) :
    (isResetWrite x ∧ t = softReset s) ∨ (¬ isResetWrite x ∧ ∃ d a, t = { s with draws := d, answer := a }) := by
  cases x with
  | wr a v =>
    by_cases hx : a = 0x00 ∧ v = 0x000000FF
    · obtain ⟨rfl, rfl⟩ := hx
      exact .inl ⟨rfl, by cases (hostWrite_srst_faulted he).symm.trans h; rfl⟩
    · refine .inr ⟨by simpa [isResetWrite] using hx, s.draws, s.answer, ?_⟩
      simpa [perform, hostWrite_faulted he hx] using h.symm
  | rd a =>
    refine .inr ⟨nofun, ?_⟩
    rcases hostRead_cases h with ⟨r, v, -, -, rfl⟩ | ⟨-, rfl⟩
    · exact ⟨_, _, rfl⟩
    · exact ⟨_, _, violation_of_faulted he _⟩
  | wrb a v =>
    refine .inr ⟨nofun, s.draws, s.answer, ?_⟩
    simpa [perform, hostWriteByte_faulted he] using h.symm
  | rdb a =>
    refine .inr ⟨nofun, ?_⟩
    rcases hostReadByte_cases h with ⟨i, -, rfl⟩ | ⟨-, rfl⟩
    · exact ⟨_, _, rfl⟩
    · exact ⟨_, _, violation_of_faulted he _⟩
  | test k f =>
    obtain ⟨b, rfl⟩ := exec_kind_cases h
    exact .inr ⟨nofun, _, _, rfl⟩

/-! ### What every access keeps, and what every step keeps -/

theorem writeReg_frame {s t : State} {v : Word} {r : Reg} (h : s.writeReg v r = some t) :
    t.cfg = s.cfg ∧ t.valid = s.valid ∧ t.runt = s.runt ∧ t.kind = s.kind := by
  rcases writeReg_cases h with ⟨-, rfl⟩ | ⟨-, rfl⟩ | ⟨-, rfl⟩ | ⟨-, rfl⟩ | ⟨-, rfl⟩ <;> exact ⟨rfl, rfl, rfl, rfl⟩

/-- A host step that is no write to `CMD` leaves the configuration and the result group alone (R33). -/
theorem perform_access_frame {x : HostStep} {s t : State} (hx : ∀ w, x ≠ .wr 0x00 w) (h : perform x s = .next t) :
    t.cfg = s.cfg ∧ t.valid = s.valid ∧ t.runt = s.runt ∧ t.kind = s.kind := by
  cases x with
  | wr a v =>
    have ha : a ≠ 0x00 := fun ha => hx v (ha ▸ rfl)
    rcases hostWrite_cases h with ⟨-, h0, -⟩ | ⟨-, -, rfl⟩ | ⟨-, h0, -⟩ | ⟨-, r, -, -, hw⟩ | ⟨-, -, rfl⟩
    · exact absurd h0 ha
    · simp
    · exact absurd h0 ha
    · exact writeReg_frame hw
    · simp
  | rd a => rcases hostRead_cases h with ⟨r, v, -, -, rfl⟩ | ⟨-, rfl⟩ <;> simp
  | wrb a v => rcases hostWriteByte_cases h with ⟨-, rfl⟩ | ⟨-, i, -, rfl⟩ | ⟨-, -, rfl⟩ <;> simp
  | rdb a => rcases hostReadByte_cases h with ⟨i, -, rfl⟩ | ⟨-, rfl⟩ <;> simp
  | test k f => obtain ⟨b, rfl⟩ := exec_kind_cases h; simp

theorem exec_cfg {i : Instr} {s t : State} (h : exec i s = .next t) : t.cfg = s.cfg := by
  cases i with
  | csumCompute => rcases execCsumCompute_cases h with ⟨-, rfl⟩ | ⟨-, -, rfl⟩ | ⟨-, -, rfl⟩ <;> simp
  | csumVerify => rcases execCsumVerify_cases h with ⟨-, rfl⟩ | ⟨-, -, rfl⟩ | ⟨-, -, rfl⟩ <;> simp
  | hdrPack => rcases execHdrPack_cases h with ⟨-, rfl⟩ | ⟨-, -, rfl⟩ | ⟨-, -, rfl⟩ <;> simp
  | hdrUnpack =>
    rcases execHdrUnpack_cases h with ⟨-, rfl⟩ | ⟨-, -, rfl⟩ | ⟨-, -, rfl⟩ | ⟨-, -, -, rfl⟩ <;> simp
  | pktEncode =>
    rcases execPktEncode_cases h with ⟨-, rfl⟩ | ⟨-, -, rfl⟩ | ⟨-, -, f0, c, -, -, rfl⟩ <;> simp
  | pktDecode =>
    rcases execPktDecode_cases h with ⟨-, rfl⟩ | ⟨-, -, rfl⟩ | ⟨-, -, rfl⟩ | ⟨-, -, -, w, ok, -, -, rfl⟩ <;> simp
  | srst => rw [execSrst_cases h, softReset_cfg]
  | kSyn f | kSynack f | kAck f | kFin f | kFinack f | kNack f | kData f => cases h; rfl

theorem issueCommand_cfg {v : Word} {s t : State} (h : issueCommand v s = .next t) : t.cfg = s.cfg := by
  rcases issueCommand_cases h with ⟨i, -, hi⟩ | ⟨-, rfl⟩
  · exact exec_cfg hi
  · exact raise_cfg _ s

theorem hostWrite_cfg {a : Addr} {v : Word} {s t : State} (h : hostWrite a v s = .next t) : t.cfg = s.cfg := by
  rcases hostWrite_cases h with ⟨-, -, -, rfl⟩ | ⟨-, -, rfl⟩ | ⟨-, -, hi⟩ | ⟨-, r, -, -, hw⟩ | ⟨-, -, rfl⟩
  · rfl
  · rfl
  · exact issueCommand_cfg hi
  · exact (writeReg_frame hw).1
  · exact violation_cfg s _

/-- No step changes the configuration (log 6). -/
theorem step_cfg {s t : State} (h : step s = .next t) : t.cfg = s.cfg := by
  rcases step_cases h with ⟨-, rfl⟩ | ⟨x, rest, -, hx⟩
  · rfl
  by_cases hc : ∃ w, x = .wr 0x00 w
  · obtain ⟨w, rfl⟩ := hc
    exact hostWrite_cfg (s := s.taking rest) hx
  · exact (perform_access_frame (fun w hw => hc ⟨w, hw⟩) hx).1

/-! ### The verdict is the sum register's value (R28, R31) -/

/-- Every sum of a frame, with a checksum added, is in the range where the fold leaves 16 bits (R133). -/
theorem fold_frame_lt (s : State) (draw : Nat) (c : Half) :
    fold (wsum s.cfg.oddPad (frameBytes s draw) + c.toNat) < 0x10000 := by
  have hw := wsum_le_words s.cfg.oddPad (frameBytes s draw)
  rw [frameBytes, readBytes_length] at hw
  have hl := s.len.isLt
  have hc := c.isLt
  exact fold_lt (by rw [frameBytes]; omega)

theorem beq_allOnes_of_lt {n : Nat} (h : n < 0x10000) : (n == 0xFFFF) = decide (BitVec.ofNat 16 n = 0xFFFF) := by
  rw [Bool.eq_iff_iff, beq_iff_eq, decide_eq_true_iff, ← BitVec.toNat_inj, BitVec.toNat_ofNat, Nat.mod_eq_of_lt h]
  rfl

/-! ### The result group of each command (R33) -/

theorem execCsumVerify_results {s t : State} (h : execCsumVerify s = .next t) (hs : s.err = false)
    (ht : t.err = false) : t.valid = decide (t.res = 0xFFFF) ∧ t.runt = false ∧ t.kind = 0 := by
  rcases execCsumVerify_cases h with ⟨he, -⟩ | ⟨-, -, rfl⟩ | ⟨-, -, rfl⟩
  · simp [hs] at he
  · simp at ht
  · exact ⟨beq_allOnes_of_lt (fold_frame_lt s _ _), rfl, rfl⟩

theorem execHdrUnpack_results {s t : State} (h : execHdrUnpack s = .next t) (hs : s.err = false)
    (ht : t.err = false) : t.valid = false ∧ t.runt = decide (s.len.toNat < 5) ∧ t.kind = 0 := by
  rcases execHdrUnpack_cases h with ⟨he, -⟩ | ⟨-, -, rfl⟩ | ⟨-, hr, rfl⟩ | ⟨-, -, hr, rfl⟩
  · simp [hs] at he
  · simp at ht
  · simp [hr]
  · simp [hr]

theorem execPktDecode_results_runt {s t : State} (h : execPktDecode s = .next t) (hs : s.err = false)
    (ht : t.err = false) (hl : s.len.toNat < 5) : t.valid = false ∧ t.runt = true ∧ t.kind = 0 := by
  rcases execPktDecode_cases h with ⟨he, -⟩ | ⟨-, -, rfl⟩ | ⟨-, -, rfl⟩ | ⟨-, -, hr, -⟩
  · simp [hs] at he
  · simp at ht
  · simp
  · omega

theorem execPktDecode_results_long {s t : State} (h : execPktDecode s = .next t) (hs : s.err = false)
    (ht : t.err = false) (hl : 5 ≤ s.len.toNat) :
    t.valid = decide (t.res = 0xFFFF) ∧ t.runt = false ∧ (t.valid = false → t.kind = 0) ∧
      (∀ b, t.valid = true → s.buf.byteAt 4 = some b → t.kind = kindBits b) := by
  rcases execPktDecode_cases h with ⟨he, -⟩ | ⟨-, -, rfl⟩ | ⟨-, hr, -⟩ | ⟨-, -, -, w, ok, rfl, rfl, rfl⟩
  · simp [hs] at he
  · simp at ht
  · omega
  · refine ⟨beq_allOnes_of_lt (fold_frame_lt s _ 0), rfl, ?_, ?_⟩
    · intro hv
      exact if_neg (by simpa using hv)
    · intro b hv hb
      rw [← readByte_of_byteAt hb (s.draws + 2)]
      exact if_pos hv

/-- The commands whose rule gives no member of the result group a value clear it whole. -/
theorem exec_clears_results {i : Instr} {s t : State} (hi : i ∈ [Instr.csumCompute, .hdrPack, .pktEncode, .srst])
    (h : exec i s = .next t) (hs : s.err = false ∨ i = .srst) (ht : t.err = false) :
    t.valid = false ∧ t.runt = false ∧ t.kind = 0 := by
  simp only [List.mem_cons, List.not_mem_nil, or_false] at hi
  rcases hi with rfl | rfl | rfl | rfl
  · rcases execCsumCompute_cases h with ⟨he, -⟩ | ⟨-, -, rfl⟩ | ⟨-, -, rfl⟩
    · simp [he] at hs
    · simp at ht
    · simp
  · rcases execHdrPack_cases h with ⟨he, -⟩ | ⟨-, -, rfl⟩ | ⟨-, -, rfl⟩
    · simp [he] at hs
    · simp at ht
    · simp
  · rcases execPktEncode_cases h with ⟨he, -⟩ | ⟨-, -, rfl⟩ | ⟨-, -, f0, c, -, -, rfl⟩
    · simp [he] at hs
    · simp at ht
    · simp
  · rw [execSrst_cases h]
    exact ⟨rfl, rfl, rfl⟩

/-! ### The obligations -/

/-- Settles O40: `CAP` is a function of the configuration, which no step changes; a write to it is a violation. -/
theorem capShowsTheConfiguration : Obligations.CapShowsTheConfiguration := by
  refine ⟨fun s => ?_, fun s t v rest hi h => ?_, fun s t h => readReg_cap_congr (step_cfg h)⟩
  · have hm := s.cfg.maxPacketSize.isLt
    refine ⟨_, rfl, ?_⟩
    rw [capWord_toNat]
    cases s.cfg.oddPad <;> simp <;> omega
  · rw [step_of_inbox hi] at h
    cases he : s.err with
    | true =>
      cases (hostWrite_faulted (s := s.taking rest) he (by simp)).symm.trans h
      simp [State.taking, ← he]
    | false =>
      cases (hostWrite_readOnly_clean (s := s.taking rest) (r := .cap) he nofun rfl).symm.trans h
      exact violation_of_clean (s := s.taking rest) he _

/-- Settles O41, by the outcomes of each command, and of each host step that is no write to `CMD`. -/
theorem everyExecutedCommandRewritesTheResults : Obligations.EveryExecutedCommandRewritesTheResults := by
  constructor
  · intro i w s t _ hs h ht
    have clean {j : Instr} (hj : i = j) (hne : j ≠ .srst) : s.err = false := hs.resolve_right (hj ▸ hne)
    refine ⟨fun hi => exec_clears_results hi h hs ht, ?_, ?_, ?_, ?_⟩
    · rintro rfl; exact execCsumVerify_results h (clean rfl nofun) ht
    · rintro rfl; exact execHdrUnpack_results h (clean rfl nofun) ht
    · rintro rfl; exact execPktDecode_results_runt h (clean rfl nofun) ht
    · rintro rfl; exact execPktDecode_results_long h (clean rfl nofun) ht
  · intro s t x rest hi hx h
    rw [step_of_inbox hi] at h
    exact (perform_access_frame hx h).2

/-- Settles O42: a faulted step other than the `SRST` write keeps all but the model's own fields. -/
theorem firstFaultIsKept : Obligations.FirstFaultIsKept := by
  refine ⟨fun c s he => ⟨raise_of_clean he c, by cases c <;> decide⟩, fun c s he => raise_of_faulted he c, ?_⟩
  intro s t he h hw
  rcases step_cases h with ⟨-, rfl⟩ | ⟨x, rest, hi, hx⟩
  · exact ⟨he, rfl⟩
  · rcases perform_faulted_cases (s := s.taking rest) he hx with ⟨hr, -⟩ | ⟨-, d, a, rfl⟩
    · exact absurd (hr ▸ hi) (hw rest)
    · exact ⟨he, rfl⟩

/-- Settles O43, one faulted access at a time; that only `SRST` ends the condition is `perform_faulted_cases`. -/
theorem faultedConditionIgnoresWrites : Obligations.FaultedConditionIgnoresWrites := by
  intro s x rest hi he
  rw [step_of_inbox hi]
  replace he : (s.taking rest).err = true := he
  refine ⟨?_, ?_, ?_, ?_, ?_, ?_⟩
  · rintro a n rfl ha
    obtain ⟨r, v, hr, hv, hn⟩ := exists_readReg_of_mem_readable ha
    exact ⟨v, hn, hostRead_of_readReg hr (by rw [taking_readReg, hv])⟩
  · rintro a b rfl ha hb
    have hread := hostReadByte_of_bufIndex (s := s.taking rest) (bufIndex_of_inBuffer ha)
    rw [taking_buf, readByte_of_byteAt hb] at hread
    exact ⟨_, hread⟩
  · rintro a v rfl hr
    exact hostWrite_faulted he (by simpa [isResetWrite] using hr)
  · rintro a v rfl
    exact hostWriteByte_faulted he a v
  · rintro rfl
    exact ⟨_, hostWrite_srst_faulted he, rfl, softReset_statusWord _⟩
  · intro t h ht
    rcases perform_faulted_cases he h with ⟨hr, -⟩ | ⟨-, d, a, rfl⟩
    · exact hr
    · cases he.symm.trans ht

/-- Settles O45: reset is a literal state, and `SRST` completes with `softReset`, which keeps the configuration. -/
theorem resetValues : Obligations.ResetValues := by
  refine ⟨?_, fun s => ⟨_, rfl, ?_⟩⟩
  · refine ⟨rfl, rfl, rfl, rfl, rfl, rfl, rfl, rfl, by decide, rfl, rfl, rfl, rfl, ?_, fun _ => rfl⟩
    exact ⟨_, rfl, capWord_toNat _⟩
  · exact ⟨rfl, rfl, rfl, rfl, rfl, rfl, rfl, rfl, softReset_statusWord s, rfl, rfl, rfl, rfl,
      readReg_cap_congr rfl, rfl⟩

end Sys2Proof.Machine
end

section
/-! SUPPORT. The statements about the address map (`20_memory.md`): the access violations. -/

namespace Sys2Proof.Machine
open Sys2Proof.Certificates

/-! ### The complement of the address map (R62, R63) -/

theorem readReg_eq_none_iff {s : State} {r : Reg} :
    s.readReg r = none ↔ r.addr ∉ (readable s).map Prod.fst := by
  cases r <;> simp [State.readReg, Reg.addr, readable]

theorem addr_mem_writable_iff {s : State} {r : Reg} {v : Word} :
    r.addr ∈ writable ↔ r = .cmd ∨ s.writeReg v r ≠ none := by
  cases r <;> simp [State.writeReg, Reg.addr, writable]

theorem readReg_at_eq_none {s : State} {a : Addr} (h : a ∉ (readable s).map Prod.fst) :
    (regAt a).bind s.readReg = none := by
  refine Option.bind_eq_none_iff.2 fun r hr => ?_
  rw [regAt_eq_some.1 hr] at h
  exact readReg_eq_none_iff.2 h

theorem bufIndex_of_not_inBuffer {s : State} {a : Addr} (h : ¬ inBuffer s a) : s.bufIndex a = none :=
  bufIndex_eq_none.2 h

@[simp] theorem taking_permitted (s : State) (rest : List HostStep) (x : HostStep) :
    permitted (s.taking rest) x ↔ permitted s x := by cases x <;> rfl

/-! ### Each transaction outside the map (R66, R181 to R184) -/

theorem hostRead_violation {s : State} {a : Addr} (h : a ∉ (readable s).map Prod.fst) :
    hostRead a s = .next (violation s (.word 0)) := by
  rw [hostRead, readReg_at_eq_none h]

theorem hostReadByte_violation {s : State} {a : Addr} (h : ¬ inBuffer s a) :
    hostReadByte a s = .next (violation s (.byte 0)) := by
  rw [hostReadByte, bufIndex_of_not_inBuffer h]

theorem hostWriteByte_violation_clean {s : State} {a : Addr} {v : Byte} (he : s.err = false) (h : ¬ inBuffer s a) :
    hostWriteByte a v s = .next (violation s .nothing) := by
  simp [hostWriteByte, he, bufIndex_of_not_inBuffer h]

theorem hostWrite_violation_clean {s : State} {a : Addr} {v : Word} (he : s.err = false) (h : a ∉ writable) :
    hostWrite a v s = .next (violation s .nothing) := by
  cases hr : regAt a with
  | none => simp [hostWrite, he, hr]
  | some r =>
    obtain rfl := regAt_eq_some.1 hr
    rw [addr_mem_writable_iff (s := s) (v := v), not_or, not_not] at h
    exact hostWrite_readOnly_clean he h.1 h.2

/-- The only write that a faulted block obeys goes to `CMD`, which the map permits (R35). -/
theorem hostWrite_outside_faulted {s : State} {a : Addr} {v : Word} (he : s.err = true) (h : a ∉ writable) :
    hostWrite a v s = .next s :=
  hostWrite_faulted he fun ⟨ha, _⟩ => h (ha ▸ by decide)

theorem perform_violation_clean {s : State} {x : HostStep} (he : s.err = false) (h : ¬ permitted s x) :
    perform x s = .next (violation s (zeroAnswer x)) := by
  cases x with
  | wr a v => exact hostWrite_violation_clean he h
  | rd a => exact hostRead_violation h
  | wrb a v => exact hostWriteByte_violation_clean he h
  | rdb a => exact hostReadByte_violation h
  | test k f => exact absurd trivial h

/-- In the faulted condition a violating write is ignored and a violating read raises nothing; the write leaves the
answer as it is, which is `nothing` once the step is taken. -/
theorem perform_violation_faulted {s : State} {x : HostStep} (he : s.err = true) (ha : s.answer = .nothing)
    (h : ¬ permitted s x) : perform x s = .next (s.answering (zeroAnswer x)) := by
  have ignored : s.answering .nothing = s := by rw [State.answering, ← ha]
  cases x with
  | wr a v => exact (hostWrite_outside_faulted he h).trans (congrArg _ ignored.symm)
  | rd a => exact (hostRead_violation h).trans (congrArg _ (violation_of_faulted he _))
  | wrb a v => exact (hostWriteByte_faulted he a v).trans (congrArg _ ignored.symm)
  | rdb a => exact (hostReadByte_violation h).trans (congrArg _ (violation_of_faulted he _))
  | test k f => exact absurd trivial h

/-! ### The obligation -/

/-- Settles O38, by the two lemmas on a violating step; taking the step moves neither the map nor `ERR`. -/
theorem accessViolations : Obligations.AccessViolations := by
  intro s x rest hi hx
  rw [← taking_permitted s rest] at hx
  rw [step_of_inbox hi]
  constructor
  · intro he
    rw [perform_violation_clean (s := s.taking rest) he hx, violation_of_clean (s := s.taking rest) he]
    rfl
  · intro he
    exact perform_violation_faulted (s := s.taking rest) he rfl hx

end Sys2Proof.Machine
end

section
/-! SUPPORT. The statement about the command encoding (`30_encoding.md`): the decoder is the opcode map. -/

namespace Sys2Proof
open Sys2Proof.Certificates

/-! ### The rows of the command decoder against the opcode map (R102) -/

/-- No row leaves a bit of the word out: "a decoder matches the whole word". -/
theorem commandRow_mask_eq_allOnes {r : CommandRow} (hr : r ∈ commandRows) : r.mask = BitVec.allOnes 32 := by
  fin_cases hr <;> rfl

theorem mem_commandTable_iff {w : Word} {i : Instr} :
    (w, i) ∈ commandTable ↔ ∃ r ∈ commandRows, r.value = w ∧ r.instr = i := by
  have rows : commandTable = commandRows.map fun r => (r.value, r.instr) := rfl
  simp [rows]

/-- No row hides a later one: the first row that matches a row's word is that row. -/
theorem decodeCommand_row {r : CommandRow} (hr : r ∈ commandRows) : decodeCommand r.value = .ok r.instr := by
  fin_cases hr <;> rfl

/-! ### The obligation -/

/-- Settles O1: a row that matches a word is its row of the opcode map, since its mask is full, and each row's word
is decoded to that row. -/
theorem commandWordsDecodeAsTheOpcodeMap : Obligations.CommandWordsDecodeAsTheOpcodeMap := by
  intro w i
  rw [mem_commandTable_iff]
  constructor
  · intro h
    obtain ⟨r, hr, hi, hw⟩ := Machine.decodeCommand_ok h
    rw [commandRow_mask_eq_allOnes hr, BitVec.and_allOnes] at hw
    exact ⟨r, hr, hw.symm, hi⟩
  · rintro ⟨r, hr, rfl, rfl⟩
    exact decodeCommand_row hr

end Sys2Proof
end

section
/-! SUPPORT. The statements about the checksum (`40_checksum.md`): the word sum as an indexed sum, the fold in closed
form, which checksums verify, and the two checksum commands. -/

namespace Sys2Proof.Machine

/-! ### The word sum by index (R130) -/

/-- Word `k` of a byte string, in network byte order. -/
def wordAt (b : List Byte) (k : Nat) : Nat := (b.getD (2 * k) 0).toNat * 256 + (b.getD (2 * k + 1) 0).toNat

/-- R130's `tail`: nothing after an even number of bytes, else the last byte as a word. -/
def tailWord (pad : OddPad) (b : List Byte) : Nat :=
  if b.length % 2 = 0 then 0 else oddTail pad (b.getD (b.length - 1) 0)

@[simp] theorem wordAt_cons_cons_zero (x y : Byte) (r : List Byte) :
    wordAt (x :: y :: r) 0 = x.toNat * 256 + y.toNat := rfl

@[simp] theorem wordAt_cons_cons_succ (x y : Byte) (r : List Byte) (k : Nat) :
    wordAt (x :: y :: r) (k + 1) = wordAt r k := rfl

/-- The first word is not part of the tail. -/
theorem tailWord_cons_cons (pad : OddPad) (x y : Byte) (r : List Byte) :
    tailWord pad (x :: y :: r) = tailWord pad r := by
  have parity : (x :: y :: r).length % 2 = r.length % 2 := Nat.add_mod_right r.length 2
  rw [tailWord, tailWord, parity]
  split
  · rfl
  · next odd =>
    obtain ⟨z, r, rfl⟩ := List.exists_cons_of_ne_nil (l := r) (by rintro rfl; exact odd rfl)
    rfl

theorem wsum_eq_sum_wordAt (pad : OddPad) :
    ∀ b : List Byte, wsum pad b = ((List.range (b.length / 2)).map (wordAt b)).sum + tailWord pad b
  | [] => rfl
  | [x] => by simp [wsum, tailWord]
  | x :: y :: r => by
    have words : (x :: y :: r).length / 2 = r.length / 2 + 1 := Nat.add_div_right r.length Nat.two_pos
    have shift : wordAt (x :: y :: r) ∘ Nat.succ = wordAt r := funext (wordAt_cons_cons_succ x y r)
    rw [wsum_cons_cons, wsum_eq_sum_wordAt pad r, words, List.range_succ_eq_map, List.map_cons, List.map_map,
      List.sum_cons, shift, wordAt_cons_cons_zero, tailWord_cons_cons, ← Nat.add_assoc]

/-- Settles O5: the indexed sum and the tail of R130 are `wordAt` and `tailWord`, written out. -/
theorem wsumIsTheSumOfBigEndianWords : Obligations.WsumIsTheSumOfBigEndianWords := by
  intro pad b
  rw [wsum_eq_sum_wordAt, tailWord]
  cases pad <;> rfl

/-! ### The verdict as a divisibility (R131, R132, R138) -/

/-- The folded sum is the representative of the sum modulo 65535 in 1 to 65535, except that only 0 folds to 0. -/
theorem fold_eq_pred_mod {v : Nat} (h : v < 2 ^ 32) : fold v = if v = 0 then 0 else (v - 1) % 65535 + 1 := by
  rw [fold_eq]
  split_ifs <;> omega

theorem fold_eq_allOnes_iff {v : Nat} (h : v < 2 ^ 32) : fold v = 0xFFFF ↔ 0 < v ∧ 65535 ∣ v := by
  rw [fold_eq_pred_mod h]
  rcases Nat.eq_zero_or_pos v with rfl | hv
  · simp
  · rw [if_neg hv.ne']; omega

/-- A byte string the block can hold sums, with any checksum added, to a 32-bit number (R133). -/
theorem wsum_add_lt (pad : OddPad) {b : List Byte} (h : b.length ≤ 65535) (c : Half) :
    wsum pad b + c.toNat < 2 ^ 32 := by
  have hw := wsum_le_words pad b
  have hc := c.isLt
  omega

theorem verify_iff_dvd (pad : OddPad) {b : List Byte} (h : b.length ≤ 65535) (c : Half) :
    verify pad b c = true ↔ 0 < wsum pad b + c.toNat ∧ 65535 ∣ wsum pad b + c.toNat := by
  rw [verify, beq_iff_eq, fold_eq_allOnes_iff (wsum_add_lt pad h c)]

/-- Settles O11: each case is arithmetic modulo 65535, of which only 0 and 65535 are multiples in 16 bits. -/
theorem verifyAcceptsBothZeros : Obligations.VerifyAcceptsBothZeros := by
  intro pad b c h
  have hc := c.isLt
  have hw : wsum pad b < 2 ^ 32 := Nat.lt_of_le_of_lt (Nat.le_add_right _ _) (wsum_add_lt pad h c)
  have zero : c = 0 ↔ c.toNat = 0 := BitVec.toNat_inj.symm
  have allOnes : c = 0xFFFF ↔ c.toNat = 65535 := BitVec.toNat_inj.symm
  rw [verify_iff_dvd pad h, compute, fold_eq_pred_mod hw, zero, allOnes]
  refine ⟨fun hz => ?_, fun hp hd => ?_, fun hd => ?_⟩
  · rw [if_pos hz]; omega
  · rw [if_neg hp.ne']; omega
  · have hp : wsum pad b ≠ 0 := fun hz => hd (hz ▸ dvd_zero 65535)
    rw [if_neg hp]; omega

/-! ### The gate and the length check before a command that reads the frame (R35, R221) -/

theorem gatedLen_over {s : State} (he : s.err = false) (hl : s.bufSize < s.len.toNat) (go : Out State) :
    unlessFaulted s (checkLen s go) = .next { s with err := true, ecode := 2 } := by
  rw [unlessFaulted_clean he, checkLen_over hl, raise_of_clean he]
  rfl

theorem gatedLen_fits {s : State} (he : s.err = false) (hl : s.len.toNat ≤ s.bufSize) (go : Out State) :
    unlessFaulted s (checkLen s go) = go := by
  rw [unlessFaulted_clean he, checkLen_fits hl]

/-! ### The two commands (R134, R136) -/

theorem frameBytes_length (s : State) (draw : Nat) : (frameBytes s draw).length = s.len.toNat :=
  readBytes_length s.buf draw 0 s.len.toNat

/-- The sum of any frame fits `ACC`, with any checksum added (R133). -/
theorem wsum_frame_add_lt (s : State) (draw : Nat) (c : Half) :
    wsum s.cfg.oddPad (frameBytes s draw) + c.toNat < 2 ^ 32 :=
  wsum_add_lt _ (by rw [frameBytes_length]; exact Nat.le_of_lt_succ s.len.isLt) c

/-- Settles O14: the gate, the length check, and the registers that show the frame's sum and its complement. -/
theorem csumComputeMeaning : Obligations.CsumComputeMeaning := by
  refine ⟨rfl, fun s => ⟨fun he => unlessFaulted_faulted he _, fun he hl => gatedLen_over he hl _, ?_⟩⟩
  intro he hl
  refine ⟨frameBytes s s.draws, _, _, _, frameBytes_length s _, readsAs_readBytes _ _ _ _, ?acc, ?res,
    gatedLen_fits he hl _⟩
  case acc => rw [showSum_acc, BitVec.toNat_ofNat]; exact Nat.mod_eq_of_lt (wsum_frame_add_lt s s.draws 0)
  case res => rw [showSum_res, BitVec.toNat_ofNat, Nat.mod_eq_of_lt (compute_lt _ _), compute]

/-- Settles O15: the gate, the length check, and the registers that show the sum with the checksum added. -/
theorem csumVerifyMeaning : Obligations.CsumVerifyMeaning := by
  refine ⟨rfl, fun s => ⟨fun he => unlessFaulted_faulted he _, fun he hl => gatedLen_over he hl _, ?_⟩⟩
  intro he hl
  refine ⟨frameBytes s s.draws, _, _, _, frameBytes_length s _, readsAs_readBytes _ _ _ _, ?acc, ?res,
    gatedLen_fits he hl _⟩
  case acc => rw [showSum_acc, BitVec.toNat_ofNat, Nat.mod_eq_of_lt (wsum_frame_add_lt s _ s.cks)]
  case res => rw [showSum_res, BitVec.toNat_ofNat, Nat.mod_eq_of_lt (fold_frame_lt s _ s.cks)]

end Sys2Proof.Machine
end

section
/-! SUPPORT. The statements about the framer (`41_framer.md`): the four commands and the kind vector. -/

namespace Sys2Proof.Machine

/-! ### The payload check and the runt check before a framer command (R35, R150, R152, R222) -/

theorem gatedPlen_over {s : State} (he : s.err = false) (hp : s.cfg.maxPacketSize.val < s.plen.toNat)
    (go : Out State) : unlessFaulted s (checkPlen s go) = .next { s with err := true, ecode := 3 } := by
  rw [unlessFaulted_clean he, checkPlen_over hp, raise_of_clean he]
  rfl

theorem gatedPlen_fits {s : State} (he : s.err = false) (hp : s.plen.toNat ≤ s.cfg.maxPacketSize.val)
    (go : Out State) : unlessFaulted s (checkPlen s go) = go := by
  rw [unlessFaulted_clean he, checkPlen_fits hp]

/-- A runt always fits the buffer, so it never meets the length check. -/
theorem gatedLen_runt {s : State} (he : s.err = false) (hr : s.len.toNat < 5) (go : Out State) :
    unlessFaulted s (checkLen s (unlessRunt s go)) = .next (setResults false true 0 s) := by
  rw [gatedLen_fits he (by rw [bufSize_eq]; omega), unlessRunt_runt hr]

theorem gatedLen_long {s : State} (he : s.err = false) (h5 : 5 ≤ s.len.toNat) (hl : s.len.toNat ≤ s.bufSize)
    (go : Out State) : unlessFaulted s (checkLen s (unlessRunt s go)) = go := by
  rw [gatedLen_fits he hl, unlessRunt_long h5]

/-! ### The header a marshalling command writes (R94, R150, R155) -/

theorem headerBytes_eq (seq cks : Half) (flg : Byte) :
    headerBytes seq cks flg =
      [BitVec.ofNat 8 (seq.toNat / 256), BitVec.ofNat 8 (seq.toNat % 256),
        BitVec.ofNat 8 (cks.toNat / 256), BitVec.ofNat 8 (cks.toNat % 256), flg] := by
  simp only [headerBytes, hiByte_eq, loByte_eq]

/-- The header of the image that `PKT.ENCODE` sums, with its checksum field zeroed. -/
theorem headerBytes_zero (seq : Half) (flg : Byte) :
    headerBytes seq 0 flg =
      [BitVec.ofNat 8 (seq.toNat / 256), BitVec.ofNat 8 (seq.toNat % 256), 0, 0, flg] :=
  headerBytes_eq seq 0 flg

theorem putHeader_holds (s : State) (c : Half) :
    (putHeader s c).buf.HoldsAt 0
      [BitVec.ofNat 8 (s.seq.toNat / 256), BitVec.ofNat 8 (s.seq.toNat % 256),
        BitVec.ofNat 8 (c.toNat / 256), BitVec.ofNat 8 (c.toNat % 256), s.flg] := by
  rw [← headerBytes_eq]
  exact storeBytes_holds s.buf 0 _

theorem byteAt_putHeader (s : State) (c : Half) {i : Nat} (hi : 5 ≤ i) :
    (putHeader s c).buf.byteAt i = s.buf.byteAt i :=
  byteAt_storeBytes_outside s.buf 0 _ i (.inr (by simpa using hi))

/-- A payload that passes the check leaves a frame length of 16 bits (R8: `BUF_SIZE` is at most 65535). -/
theorem putHeader_len_toNat {s : State} (hp : s.plen.toNat ≤ s.cfg.maxPacketSize.val) (c : Half) :
    (putHeader s c).len.toNat = 5 + s.plen.toNat := by
  have hb := bufSize_le s
  rw [bufSize_eq] at hb
  rw [putHeader_len, BitVec.toNat_ofNat, hdrSize, Nat.mod_eq_of_lt (by omega)]

/-! ### The bytes an unmarshalling command reads (R43, R152, R158) -/

/-- The bytes that the header fields are taken from are bytes that `BUF[0 .. 4]` may read as. -/
theorem readsAs_header (m : Memory) (draw : Nat) :
    m.ReadsAs 0 [readByte m draw 0, readByte m draw 1, readByte m draw 2, readByte m draw 3, readByte m draw 4] :=
  readsAs_readBytes m draw 0 5

theorem readsAs_readByte (m : Memory) (draw i : Nat) : m.ReadsAs i [readByte m draw i] :=
  readsAs_readBytes m draw i 1

theorem takeHeader_plen_toNat (s : State) (draw : Nat) : (takeHeader s draw).plen.toNat = s.len.toNat - 5 := by
  have hl := s.len.isLt
  rw [takeHeader_plen, BitVec.toNat_ofNat, hdrSize, Nat.mod_eq_of_lt (by omega)]

/-! ### The sums that `ACC` shows (R133, R155) -/

theorem wsum_lt (pad : OddPad) {b : List Byte} (h : b.length ≤ 65535) : wsum pad b < 2 ^ 32 :=
  Nat.lt_of_le_of_lt (Nat.le_add_right _ _) (wsum_add_lt pad h 0)

theorem wsum_frame_lt (s : State) (draw : Nat) : wsum s.cfg.oddPad (frameBytes s draw) < 2 ^ 32 :=
  Nat.lt_of_le_of_lt (Nat.le_add_right _ _) (wsum_frame_add_lt s draw 0)

theorem payloadBytes_length (s : State) (draw : Nat) : (payloadBytes s draw).length = s.plen.toNat :=
  readBytes_length s.buf draw hdrSize s.plen.toNat

/-- The sum of the image fits `ACC` when the payload passes the check (R133). -/
theorem wsum_image_lt {s : State} {f0 : List Byte} (hp : s.plen.toNat ≤ s.cfg.maxPacketSize.val)
    (hf : f0 = headerBytes s.seq 0 s.flg ++ payloadBytes s s.draws) : wsum s.cfg.oddPad f0 < 2 ^ 32 := by
  have hb := bufSize_le s
  rw [bufSize_eq] at hb
  refine wsum_lt _ ?_
  rw [hf, List.length_append, headerBytes_length, payloadBytes_length]
  omega

/-! ### The commands -/

/-- A payload that passes the check is framed with the checksum of the zero-checksum image `f0` (R155). -/
theorem execPktEncode_fits {s : State} {f0 : List Byte} (he : s.err = false)
    (hp : s.plen.toNat ≤ s.cfg.maxPacketSize.val) (hf : f0 = headerBytes s.seq 0 s.flg ++ payloadBytes s s.draws) :
    execPktEncode s = .next
      (clearResults (showSum (wsum s.cfg.oddPad f0) (compute s.cfg.oddPad f0)
        { (putHeader s (BitVec.ofNat 16 (compute s.cfg.oddPad f0))).drawn 1 with
          cks := BitVec.ofNat 16 (compute s.cfg.oddPad f0) })) := by
  subst hf
  exact gatedPlen_fits he hp _

/-- A frame that passes the checks is judged by its sum, and `KIND` is evaluated where the sum is all ones. -/
theorem execPktDecode_long {s : State} (he : s.err = false) (h5 : 5 ≤ s.len.toNat) (hl : s.len.toNat ≤ s.bufSize) :
    execPktDecode s = .next
      (setResults (decide (fold (wsum s.cfg.oddPad (frameBytes s s.draws)) = 0xFFFF)) false
        (if fold (wsum s.cfg.oddPad (frameBytes s s.draws)) = 0xFFFF then
          kindBits (readByte s.buf (s.draws + 2) 4) else 0)
        (showSum (wsum s.cfg.oddPad (frameBytes s s.draws)) (fold (wsum s.cfg.oddPad (frameBytes s s.draws)))
          ((takeHeader s (s.draws + 1)).drawn 3))) := by
  rw [execPktDecode, gatedLen_long he h5 hl]
  simp only [beq_eq_decide, decide_eq_true_iff]

/-- Settles O16: the gate, the payload check, and the header that `putHeader` writes with `CKS` as it stands. -/
theorem hdrPackMeaning : Obligations.HdrPackMeaning := by
  refine ⟨rfl, fun s => ⟨fun he => unlessFaulted_faulted he _, fun he hp => gatedPlen_over he hp _, ?_⟩⟩
  intro he hp
  exact ⟨_, _, gatedPlen_fits he hp _, putHeader_len_toNat hp _, putHeader_holds s _,
    fun i hi => byteAt_putHeader s _ hi⟩

/-- Settles O17: the gate, the two length checks, and the fields that `takeHeader` reads. -/
theorem hdrUnpackMeaning : Obligations.HdrUnpackMeaning := by
  refine ⟨rfl, fun s => ⟨fun he => unlessFaulted_faulted he _, fun he hl => gatedLen_over he hl _,
    fun he hr => gatedLen_runt he hr _, ?_⟩⟩
  intro he h5 hl
  exact ⟨_, _, _, _, _, _, _, _, _, readsAs_header s.buf s.draws, be16_toNat _ _, be16_toNat _ _,
    takeHeader_plen_toNat s s.draws, gatedLen_long he h5 hl _⟩

/-- Settles O18: the gate, the payload check, the sum of the zero-checksum image, and the header that `putHeader`
writes with the checksum computed from it. -/
theorem pktEncodeMeaning : Obligations.PktEncodeMeaning := by
  refine ⟨rfl, fun s => ⟨fun he => unlessFaulted_faulted he _, fun he hp => gatedPlen_over he hp _, ?_⟩⟩
  intro he hp
  obtain ⟨f0, hf⟩ : ∃ f0, f0 = headerBytes s.seq 0 s.flg ++ payloadBytes s s.draws := ⟨_, rfl⟩
  refine ⟨payloadBytes s s.draws, f0, _, _, _, _, _, payloadBytes_length s _, readsAs_readBytes _ _ _ _, ?image,
    putHeader_len_toNat hp (BitVec.ofNat 16 (compute s.cfg.oddPad f0)), ?acc, ?cks, execPktEncode_fits he hp hf,
    putHeader_holds s _, fun i hi => byteAt_putHeader s _ hi⟩
  case image => rw [hf, headerBytes_zero]
  case acc => rw [showSum_acc, BitVec.toNat_ofNat, Nat.mod_eq_of_lt (wsum_image_lt hp hf)]
  case cks => rw [showSum_cks, BitVec.toNat_ofNat, Nat.mod_eq_of_lt (compute_lt _ _), compute]

/-- Settles O19: the gate, the two length checks, the fields that `takeHeader` reads, and the verdict on the frame's
sum. The sum, the fields and `KIND` are taken from the three reads of the buffer. -/
theorem pktDecodeMeaning : Obligations.PktDecodeMeaning := by
  refine ⟨rfl, fun s => ⟨fun he => unlessFaulted_faulted he _, fun he hl => gatedLen_over he hl _,
    fun he hr => gatedLen_runt he hr _, ?_⟩⟩
  intro he h5 hl
  refine ⟨frameBytes s s.draws, _, _, _, _, _, _, _, _, _, _, _, _, frameBytes_length s _,
    readsAs_readBytes _ _ _ _, readsAs_header s.buf (s.draws + 1), readsAs_readByte s.buf (s.draws + 2) 4,
    be16_toNat _ _, be16_toNat _ _, takeHeader_plen_toNat s (s.draws + 1), ?acc, ?res,
    execPktDecode_long he h5 hl⟩
  case acc => rw [showSum_acc, BitVec.toNat_ofNat, Nat.mod_eq_of_lt (wsum_frame_lt s s.draws)]
  case res => rw [showSum_res, BitVec.toNat_ofNat, Nat.mod_eq_of_lt (fold_lt (wsum_frame_lt s s.draws))]

/-! ### The kind vector (R170 to R177) -/

/-- A flag of a single bit is set exactly when the byte has a bit in common with it. -/
theorem hasFlags_twoPow (f : Byte) {i : Nat} (hi : i < 8) :
    hasFlags f (BitVec.twoPow 8 i) = decide (f &&& BitVec.twoPow 8 i ≠ 0) := by
  have hm : BitVec.twoPow 8 i ≠ 0#8 := BitVec.toNat_ne.2 (by simp [BitVec.toNat_twoPow_of_lt hi])
  rw [hasFlags, BitVec.and_twoPow]
  split
  · simp [hm]
  · simp [hm.symm]

theorem isSyn_eq (f : Byte) : isSyn f = decide (f &&& 0x01 ≠ 0) := hasFlags_twoPow f (i := 0) (by decide)
theorem isSynack_eq (f : Byte) : isSynack f = decide (f &&& 0x05 = 0x05) := rfl
theorem isAck_eq (f : Byte) : isAck f = decide (f &&& 0x04 ≠ 0) := hasFlags_twoPow f (i := 2) (by decide)
theorem isFin_eq (f : Byte) : isFin f = decide (f &&& 0x08 ≠ 0) := hasFlags_twoPow f (i := 3) (by decide)
theorem isFinack_eq (f : Byte) : isFinack f = decide (f &&& 0x10 ≠ 0) := hasFlags_twoPow f (i := 4) (by decide)
theorem isNack_eq (f : Byte) : isNack f = decide (f &&& 0x40 ≠ 0) := hasFlags_twoPow f (i := 6) (by decide)
theorem isData_eq (f : Byte) : isData f = decide (f &&& 0x80 ≠ 0) := hasFlags_twoPow f (i := 7) (by decide)

theorem kindBits_toNat (f : Byte) :
    (kindBits f).toNat = (isSyn f).toNat + 2 * (isSynack f).toNat + 4 * (isAck f).toNat + 8 * (isFin f).toNat +
      16 * (isFinack f).toNat + 32 * (isNack f).toNat + 64 * (isData f).toNat := by
  simp only [kindBits, append_toNat, BitVec.toNat_ofBool]
  omega

/-- No command but `PKT.DECODE` evaluates the kind vector: it keeps `KIND`, or clears it with the result group. -/
theorem exec_keeps_or_clears_kind {i : Instr} {s t : State} (hi : i ≠ .pktDecode) (h : exec i s = .next t) :
    t.kind = s.kind ∨ t.kind = 0 := by
  cases i with
  | csumCompute => rcases execCsumCompute_cases h with ⟨-, rfl⟩ | ⟨-, -, rfl⟩ | ⟨-, -, rfl⟩ <;> simp
  | csumVerify => rcases execCsumVerify_cases h with ⟨-, rfl⟩ | ⟨-, -, rfl⟩ | ⟨-, -, rfl⟩ <;> simp
  | hdrPack => rcases execHdrPack_cases h with ⟨-, rfl⟩ | ⟨-, -, rfl⟩ | ⟨-, -, rfl⟩ <;> simp
  | hdrUnpack =>
    rcases execHdrUnpack_cases h with ⟨-, rfl⟩ | ⟨-, -, rfl⟩ | ⟨-, -, rfl⟩ | ⟨-, -, -, rfl⟩ <;> simp
  | pktEncode =>
    rcases execPktEncode_cases h with ⟨-, rfl⟩ | ⟨-, -, rfl⟩ | ⟨-, -, f0, c, -, -, rfl⟩ <;> simp
  | pktDecode => exact absurd rfl hi
  | srst => rw [execSrst_cases h]; exact .inr (softReset_kind s)
  | kSyn f | kSynack f | kAck f | kFin f | kFinack f | kNack f | kData f => cases h; exact .inl rfl

/-- Settles O22: the vector as a number, with each predicate as R171 to R177 write it, and the frame of `KIND`. -/
theorem kindVectorIsEvaluatedByDecodeOnly : Obligations.KindVectorIsEvaluatedByDecodeOnly := by
  refine ⟨fun f => ?_, fun i s t hi h => exec_keeps_or_clears_kind hi h⟩
  rw [← isSyn_eq, ← isSynack_eq, ← isAck_eq, ← isFin_eq, ← isFinack_eq, ← isNack_eq, ← isData_eq, ← kindBits_toNat,
    BitVec.ofNat_toNat, BitVec.setWidth_eq]

end Sys2Proof.Machine
end

section
/-! SUPPORT. The statements about the system family (`42_system.md`): `SRST` and the host's four transactions. -/

namespace Sys2Proof.Machine
open Sys2Proof.Certificates

/-! ### The commands in the faulted condition (R35, R180) -/

/-- Every command of the opcode map but `SRST` stands behind the gate of the faulted condition. -/
theorem exec_command_gated {w : Word} {i : Instr} (h : (w, i) ∈ commandTable) (hi : i ≠ .srst) (s : State) :
    ∃ go, exec i s = unlessFaulted s go := by
  cases i with
  | csumCompute | csumVerify | hdrPack | hdrUnpack | pktEncode | pktDecode => exact ⟨_, rfl⟩
  | srst => exact absurd rfl hi
  | kSyn f | kSynack f | kAck f | kFin f | kFinack f | kNack f | kData f => simp [commandTable] at h

/-- Settles O20: the other commands stand behind the gate, and a faulted step that is no `SRST` write keeps `ERR`. -/
theorem srstMeaning : Obligations.SrstMeaning := by
  refine ⟨rfl, fun s => rfl, fun w i s hw hi he => ?_, fun s t he h ht => ?_⟩
  · obtain ⟨go, hgo⟩ := exec_command_gated ((commandWordsDecodeAsTheOpcodeMap w i).1 hw) hi s
    rw [hgo, unlessFaulted_faulted he]
  · rcases step_cases h with ⟨-, rfl⟩ | ⟨x, rest, hi, hx⟩
    · cases he.symm.trans ht
    · rcases perform_faulted_cases (s := s.taking rest) he hx with ⟨hr, -⟩ | ⟨-, d, a, rfl⟩
      · exact ⟨rest, hr ▸ hi⟩
      · cases he.symm.trans ht

/-! ### The write to `CMD`, and to a read-write register, with `ERR` = 0 (R40, R103, R181) -/

theorem hostWrite_cmd_clean {s : State} (he : s.err = false) (v : Word) :
    hostWrite 0x00 v s = issueCommand v s := by
  rw [hostWrite, if_neg (by simp [he])]
  rfl

theorem issueCommand_of_mem {v : Word} {i : Instr} (h : (v, i) ∈ commandTable) (s : State) :
    issueCommand v s = exec i s := by
  rw [issueCommand, (commandWordsDecodeAsTheOpcodeMap v i).2 h]

theorem issueCommand_illegal {v : Word} (h : ∀ i, (v, i) ∉ commandTable) (s : State) :
    issueCommand v s = .next (raise .illCmd s) := by
  cases hd : decodeCommand v with
  | ok i => exact absurd ((commandWordsDecodeAsTheOpcodeMap v i).1 hd) (h i)
  | error r => rw [issueCommand, hd]

theorem hostWrite_store_clean {s t : State} {r : Reg} {v : Word} (he : s.err = false)
    (hw : s.writeReg v r = some t) : hostWrite r.addr v s = .next t := by
  have hr : r ≠ .cmd := by rintro rfl; cases hw
  simp [hostWrite, he, regAt_eq_some.2 rfl, writeSlot, hr, hw]

/-- Settles O34, by the lemma on each kind of address; the statement's `BitVec.ofNat` is the store's truncation. -/
theorem hostWriteMeaning : Obligations.HostWriteMeaning := by
  intro s a v rest hi
  rw [step_of_inbox hi]
  simp only [BitVec.ofNat_toNat]
  refine ⟨?_, fun he hx => hostWrite_faulted he hx, fun he => ?_⟩
  · rintro he rfl rfl
    exact hostWrite_srst_faulted he
  replace he : (s.taking rest).err = false := he
  refine ⟨?cmd, ?seq, ?cks, ?flg, ?plen, ?len, ?outside⟩
  case cmd =>
    rintro rfl
    rw [perform, hostWrite_cmd_clean he]
    refine ⟨fun i hv => issueCommand_of_mem hv _, fun hv => ?_⟩
    rw [issueCommand_illegal hv, raise_of_clean he]
    rfl
  case seq => rintro rfl; exact hostWrite_store_clean (r := .seq) he rfl
  case cks => rintro rfl; exact hostWrite_store_clean (r := .cks) he rfl
  case flg => rintro rfl; exact hostWrite_store_clean (r := .flg) he rfl
  case plen => rintro rfl; exact hostWrite_store_clean (r := .plen) he rfl
  case len => rintro rfl; exact hostWrite_store_clean (r := .len) he rfl
  case outside =>
    intro ha
    rw [← step_of_inbox hi]
    exact (accessViolations s _ rest hi ha).1 he

/-! ### The read of a register (R182) -/

/-- Settles O35: a row of the table is a register with its number, and outside the table the read is a violation. -/
theorem hostReadMeaning : Obligations.HostReadMeaning := by
  intro s a rest hi
  refine ⟨fun n ha => ?_, fun ha => (accessViolations s _ rest hi ha).symm⟩
  obtain ⟨r, v, hr, hv, hn⟩ := exists_readReg_of_mem_readable ha
  exact ⟨v, hn, (step_of_inbox hi).trans (hostRead_of_readReg hr (by rw [taking_readReg, hv]))⟩

/-! ### The bytes of the buffer (R183, R184) -/

theorem hostWriteByte_store_clean {s : State} {a : Addr} {i : Nat} (he : s.err = false)
    (h : s.bufIndex a = some i) (v : Byte) :
    hostWriteByte a v s = .next { s with buf := s.buf.store i v } := by
  simp [hostWriteByte, he, h]

/-- Settles O36: the buffer after the store is the written byte at its index and the old buffer elsewhere. -/
theorem hostWriteByteMeaning : Obligations.HostWriteByteMeaning := by
  intro s a v rest hi
  refine ⟨fun he => ?_, fun he ha => ?_, fun he ha => (accessViolations s _ rest hi ha).1 he⟩
  · exact (step_of_inbox hi).trans (hostWriteByte_faulted (s := s.taking rest) he a v)
  · exact ⟨_,
      (step_of_inbox hi).trans (hostWriteByte_store_clean (s := s.taking rest) he (bufIndex_of_inBuffer ha) v),
      byteAt_store_same _ _ _, fun i hne => byteAt_store_other _ _ hne⟩

/-- Settles O37: one read of the buffer, in which a written byte is itself. -/
theorem hostReadByteMeaning : Obligations.HostReadByteMeaning := by
  intro s a rest hi
  refine ⟨fun ha => ?_, fun ha => (accessViolations s _ rest hi ha).symm⟩
  exact ⟨readByte s.buf s.draws (a.toNat - 0x10000), s.draws + 1,
    (step_of_inbox hi).trans (hostReadByte_of_bufIndex (s := s.taking rest) (bufIndex_of_inBuffer ha)),
    fun b hb => readByte_of_byteAt hb s.draws⟩

end Sys2Proof.Machine
end

section
/-! SUPPORT. The statement about the faults as a whole (`60_exceptions.md`): a step faults exactly for the causes of
R220, and changes nothing else when it does. -/

namespace Sys2Proof.Machine
open Sys2Proof.Certificates

/-- An outcome is one next state, so `ERR` is read off whichever form of it is known. -/
theorem clean_of_next {o : Out State} {t u : State} (hu : o = .next u) (h : o = .next t) (he : u.err = false) :
    t.err = false := by
  cases hu.symm.trans h
  exact he

/-! ### A command word written to `CMD` with `ERR` = 0 (R40, R103) -/

theorem step_command {s : State} {w : Word} {i : Instr} {rest : List HostStep} (hi : s.inbox = .wr 0x00 w :: rest)
    (he : s.err = false) (hw : (w, i) ∈ commandTable) : step s = exec i (s.taking rest) := by
  obtain ⟨-, -, clean⟩ := hostWriteMeaning s 0x00 w rest hi
  obtain ⟨cmd, -⟩ := clean he
  exact (cmd rfl).1 i hw

theorem step_illegal_command {s : State} {w : Word} {rest : List HostStep} (hi : s.inbox = .wr 0x00 w :: rest)
    (he : s.err = false) (hw : ∀ i, (w, i) ∉ commandTable) :
    step s = .next { s with inbox := rest, answer := .nothing, err := true, ecode := 1 } := by
  obtain ⟨-, -, clean⟩ := hostWriteMeaning s 0x00 w rest hi
  obtain ⟨cmd, -⟩ := clean he
  exact (cmd rfl).2 hw

/-- R221, for each word of a command that reads `LEN`. -/
theorem exec_overLen {w : Word} {s : State} (hw : w ∈ [(0x00000001 : Word), 0x00000002, 0x00000011, 0x00000013])
    (he : s.err = false) (hl : s.bufSize < s.len.toNat) :
    ∃ i, (w, i) ∈ commandTable ∧ exec i s = .next { s with err := true, ecode := 2 } := by
  simp only [List.mem_cons, List.not_mem_nil, or_false] at hw
  rcases hw with rfl | rfl | rfl | rfl
  · exact ⟨.csumCompute, by decide, gatedLen_over he hl _⟩
  · exact ⟨.csumVerify, by decide, gatedLen_over he hl _⟩
  · exact ⟨.hdrUnpack, by decide, gatedLen_over he hl _⟩
  · exact ⟨.pktDecode, by decide, gatedLen_over he hl _⟩

/-- R222, for each word of a command that reads `PLEN`. -/
theorem exec_overPlen {w : Word} {s : State} (hw : w ∈ [(0x00000010 : Word), 0x00000012])
    (he : s.err = false) (hp : s.cfg.maxPacketSize.val < s.plen.toNat) :
    ∃ i, (w, i) ∈ commandTable ∧ exec i s = .next { s with err := true, ecode := 3 } := by
  simp only [List.mem_cons, List.not_mem_nil, or_false] at hw
  rcases hw with rfl | rfl
  · exact ⟨.hdrPack, by decide, gatedPlen_over he hp _⟩
  · exact ⟨.pktEncode, by decide, gatedPlen_over he hp _⟩

/-- Past its length check a command writes no `ERR`. -/
theorem exec_fits_clean {w : Word} {i : Instr} {s t : State} (hw : (w, i) ∈ commandTable) (he : s.err = false)
    (hl : w ∈ [(0x00000001 : Word), 0x00000002, 0x00000011, 0x00000013] → s.len.toNat ≤ s.bufSize)
    (hp : w ∈ [(0x00000010 : Word), 0x00000012] → s.plen.toNat ≤ s.cfg.maxPacketSize.val)
    (h : exec i s = .next t) : t.err = false := by
  cases i with
  | csumCompute | csumVerify =>
    replace hl := hl (by simp [commandTable] at hw; simp [hw])
    exact clean_of_next (gatedLen_fits he hl _) h he
  | hdrPack | pktEncode =>
    replace hp := hp (by simp [commandTable] at hw; simp [hw])
    exact clean_of_next (gatedPlen_fits he hp _) h (by simpa using he)
  | hdrUnpack | pktDecode =>
    replace hl := hl (by simp [commandTable] at hw; simp [hw])
    rcases Nat.lt_or_ge s.len.toNat 5 with hr | hr
    · exact clean_of_next (gatedLen_runt he hr _) h he
    · exact clean_of_next (gatedLen_long he hr hl _) h he
  | srst => rw [execSrst_cases h, softReset_err]
  | kSyn f | kSynack f | kAck f | kFin f | kFinack f | kNack f | kData f => simp [commandTable] at hw

/-! ### The steps with a cause, and those with none (R220) -/

theorem step_of_cause {s : State} {x : HostStep} {rest : List HostStep} {c : BitVec 4} (hi : s.inbox = x :: rest)
    (he : s.err = false) (hc : causes s x c) :
    step s = .next { s with inbox := rest, answer := zeroAnswer x, err := true, ecode := c } := by
  rcases hc with ⟨rfl, hx⟩ | ⟨w, rfl, ⟨rfl, hw⟩ | ⟨rfl, hw, hl⟩ | ⟨rfl, hw, hp⟩⟩
  · exact (accessViolations s x rest hi hx).1 he
  · exact step_illegal_command hi he hw
  · obtain ⟨i, hwi, hx⟩ := exec_overLen (s := s.taking rest) hw he hl
    exact (step_command hi he hwi).trans hx
  · obtain ⟨i, hwi, hx⟩ := exec_overPlen (s := s.taking rest) hw he hp
    exact (step_command hi he hwi).trans hx

/-- Of the permitted steps only a write to `CMD` can raise a fault. -/
theorem step_access_clean {s t : State} {x : HostStep} {rest : List HostStep} (hi : s.inbox = x :: rest)
    (he : s.err = false) (hx : permitted s x) (hc : ∀ w, x ≠ .wr 0x00 w) (h : step s = .next t) : t.err = false := by
  cases x with
  | wr a v =>
    obtain ⟨-, -, clean⟩ := hostWriteMeaning s a v rest hi
    obtain ⟨-, seq, cks, flg, plen, len, -⟩ := clean he
    simp only [permitted, writable, List.mem_cons, List.not_mem_nil, or_false] at hx
    rcases hx with ha | ha | ha | ha | ha | ha
    · exact absurd (ha ▸ rfl) (hc v)
    · exact clean_of_next (seq ha) h he
    · exact clean_of_next (cks ha) h he
    · exact clean_of_next (flg ha) h he
    · exact clean_of_next (plen ha) h he
    · exact clean_of_next (len ha) h he
  | rd a =>
    obtain ⟨⟨_, n⟩, hn, rfl⟩ := List.mem_map.1 hx
    obtain ⟨v, -, hv⟩ := (hostReadMeaning s _ rest hi).1 n hn
    exact clean_of_next hv h he
  | wrb a v =>
    obtain ⟨-, store, -⟩ := hostWriteByteMeaning s a v rest hi
    obtain ⟨m, hm, -⟩ := store he hx
    exact clean_of_next hm h he
  | rdb a =>
    obtain ⟨v, d, hv, -⟩ := (hostReadByteMeaning s a rest hi).1 hx
    exact clean_of_next hv h he
  | test k f =>
    rw [step_of_inbox hi] at h
    obtain ⟨b, rfl⟩ := exec_kind_cases h
    exact he

/-- Denying each cause of R220 in turn leaves a permitted access, a command word, and a length in range. -/
theorem step_clean_of_no_cause {s t : State} {x : HostStep} {rest : List HostStep} (hi : s.inbox = x :: rest)
    (he : s.err = false) (hn : ¬ ∃ c, causes s x c) (h : step s = .next t) : t.err = false := by
  have hx : permitted s x := by_contra fun hx => hn ⟨4, .inl ⟨rfl, hx⟩⟩
  by_cases hc : ∃ w, x = .wr 0x00 w
  · obtain ⟨w, rfl⟩ := hc
    obtain ⟨i, hw⟩ : ∃ i, (w, i) ∈ commandTable :=
      by_contra fun hw => hn ⟨1, .inr ⟨w, rfl, .inl ⟨rfl, not_exists.1 hw⟩⟩⟩
    rw [step_command hi he hw] at h
    refine exec_fits_clean (s := s.taking rest) hw he (fun hl => ?_) (fun hp => ?_) h
    · exact not_lt.1 fun hlt => hn ⟨2, .inr ⟨w, rfl, .inr (.inl ⟨rfl, hl, hlt⟩)⟩⟩
    · exact not_lt.1 fun hlt => hn ⟨3, .inr ⟨w, rfl, .inr (.inr ⟨rfl, hp, hlt⟩)⟩⟩
  · exact step_access_clean hi he hx (not_exists.1 hc) h

/-! ### The obligation -/

/-- Settles O44: a step with a cause ends in that cause's fault state, and a step with none raises nothing, so a step
that ends with `ERR` = 1 had a cause, whose code it left. -/
theorem faultsAreCompleteAndPrecise : Obligations.FaultsAreCompleteAndPrecise := by
  refine ⟨fun c s => rfl, fun s x rest hi he => ⟨fun c hc => step_of_cause hi he hc, fun t h ht => ?_⟩⟩
  by_cases hc : ∃ c, causes s x c
  · obtain ⟨c, hc⟩ := hc
    cases (step_of_cause hi he hc).symm.trans h
    exact hc
  · cases ht.symm.trans (step_clean_of_no_cause hi he hc h)

end Sys2Proof.Machine
end

section
/-! SUPPORT. The statements about both encodings (`30_encoding.md`): decoding and encoding agree, a step runs what was
decoded, and the kind rows. -/

namespace Sys2Proof
open Sys2Proof.Certificates Sys2Proof.Machine

/-! ### The readings of bits (R97, R102) -/

/-- Every instruction is read from its own encoding exactly when it is well formed. -/
theorem mem_readings_encode_iff (i : Instr) : i ∈ readings (encode i) ↔ i.WellFormed = true := by
  cases i with
  | csumCompute => exact Laws.Roundtrip.csumCompute
  | csumVerify => exact Laws.Roundtrip.csumVerify
  | hdrPack => exact Laws.Roundtrip.hdrPack
  | hdrUnpack => exact Laws.Roundtrip.hdrUnpack
  | pktEncode => exact Laws.Roundtrip.pktEncode
  | pktDecode => exact Laws.Roundtrip.pktDecode
  | srst => exact Laws.Roundtrip.srst
  | kSyn f => exact Laws.Roundtrip.kSyn f
  | kSynack f => exact Laws.Roundtrip.kSynack f
  | kAck f => exact Laws.Roundtrip.kAck f
  | kFin f => exact Laws.Roundtrip.kFin f
  | kFinack f => exact Laws.Roundtrip.kFinack f
  | kNack f => exact Laws.Roundtrip.kNack f
  | kData f => exact Laws.Roundtrip.kData f

theorem mem_readings_command_iff {w : Word} {i : Instr} : i ∈ readings (.command w) ↔ decodeCommand w = .ok i := by
  rw [readings]
  cases decodeCommand w with
  | ok j => simp [eq_comm]
  | error r => simp

theorem mem_readings_flags_iff {f : Byte} {i : Instr} :
    i ∈ readings (.flags f) ↔ ∃ k ∈ kindsOf f, k.instr f = i := List.mem_map

theorem encode_of_mem_commandTable {w : Word} {i : Instr} (h : (w, i) ∈ commandTable) : encode i = .command w := by
  simp only [commandTable, List.mem_cons, Prod.mk.injEq, List.not_mem_nil, or_false] at h
  rcases h with h | h | h | h | h | h | h <;> obtain ⟨rfl, rfl⟩ := h <;> rfl

@[simp] theorem encode_instr (k : Kind) (f : Byte) : encode (k.instr f) = .flags f := by cases k <;> rfl

theorem encode_of_mem_readings {c : Code} {i : Instr} (h : i ∈ readings c) : encode i = c := by
  cases c with
  | command w =>
    exact encode_of_mem_commandTable ((commandWordsDecodeAsTheOpcodeMap w i).1 (mem_readings_command_iff.1 h))
  | flags f =>
    obtain ⟨k, -, rfl⟩ := mem_readings_flags_iff.1 h
    exact encode_instr k f

theorem mem_readings_iff {c : Code} {i : Instr} : i ∈ readings c ↔ i.WellFormed = true ∧ encode i = c := by
  constructor
  · intro h
    have he := encode_of_mem_readings h
    exact ⟨(mem_readings_encode_iff i).1 (he ▸ h), he⟩
  · rintro ⟨hw, rfl⟩
    exact (mem_readings_encode_iff i).2 hw

/-! ### What the decoder answers (log 4) -/

theorem decodeFlags_ok {f : Byte} {i : Instr} (h : decodeFlags f = .ok i) :
    ∃ k, leadingKind f = some k ∧ k.instr f = i := by
  unfold decodeFlags at h
  split at h
  · next k hk => exact ⟨k, hk, by cases h; rfl⟩
  · cases h

theorem decodeFlags_of_leadingKind {f : Byte} {k : Kind} (h : leadingKind f = some k) :
    decodeFlags f = .ok (k.instr f) := by
  rw [decodeFlags, h]

theorem mem_readings_of_decode {c : Code} {i : Instr} (h : decode c = .ok i) : i ∈ readings c := by
  cases c with
  | command w => exact mem_readings_command_iff.2 h
  | flags f =>
    obtain ⟨k, hk, rfl⟩ := decodeFlags_ok h
    exact mem_readings_flags_iff.2 ⟨k, List.mem_of_head? hk, rfl⟩

/-- Bits with a reading are not rejected: a flags byte with a kind has a first one. -/
theorem exists_decode_of_mem_readings {c : Code} {i : Instr} (h : i ∈ readings c) : ∃ j, decode c = .ok j := by
  cases c with
  | command w => exact ⟨i, mem_readings_command_iff.1 h⟩
  | flags f =>
    obtain ⟨k, hk, -⟩ := mem_readings_flags_iff.1 h
    exact ⟨_, decodeFlags_of_leadingKind (List.head?_eq_some_head (List.ne_nil_of_mem hk))⟩

/-- Settles O3: the readings of bits are characterised by `mem_readings_iff`, and the decoder answers one of them. -/
theorem decodeEncodeAgree : Obligations.DecodeEncodeAgree := by
  refine ⟨fun c i => mem_readings_iff, fun w i hw he => ?_, fun c i => mem_readings_of_decode, fun c i h => ?_⟩
  · rw [he]
    exact mem_readings_command_iff.1 (mem_readings_iff.2 ⟨hw, he⟩)
  · obtain ⟨j, hj⟩ := exists_decode_of_mem_readings h
    have same : encode j = encode i :=
      (encode_of_mem_readings (mem_readings_of_decode hj)).trans (encode_of_mem_readings h).symm
    exact ⟨j, hj, same⟩

/-- Settles O2, by evaluation of the decoder. -/
theorem specWordsDecode : Obligations.SpecWordsDecode := by
  refine ⟨?_, ?_, ?_, ?_, ?_, ?_, ?_, ?_, ?_, ?_⟩ <;> decide

/-! ### The step that runs a decoded instruction (R40, R181, log 1, log 3) -/

/-- A decoded command word runs its command; in the faulted condition any but `SRST` is refused at the write and at the
command's own gate alike (R35). -/
theorem hostWrite_of_decodeCommand {w : Word} {i : Instr} (h : decodeCommand w = .ok i) (s : State) :
    hostWrite 0x00 w s = exec i s := by
  have hw := (commandWordsDecodeAsTheOpcodeMap w i).1 h
  cases he : s.err with
  | false => rw [hostWrite_cmd_clean he, issueCommand_of_mem hw]
  | true =>
    by_cases hi : i = .srst
    · subst hi
      obtain rfl : w = 0x000000FF := by cases encode_of_mem_commandTable hw; rfl
      exact hostWrite_srst_faulted he
    · have hne : w ≠ 0x000000FF := by
        rintro rfl
        exact hi (by cases h; rfl)
      obtain ⟨go, hgo⟩ := exec_command_gated hw hi s
      rw [hostWrite_faulted he (fun hc => hne hc.2), hgo, unlessFaulted_faulted he]

theorem decodeTableWord_eq_some {nbits w : Nat} {i : Instr} (h : decodeTableWord nbits w = some i) :
    ∃ c, codeOfTableWord nbits w = some c ∧ decode c = .ok i := by
  unfold decodeTableWord at h
  split at h
  · next c hc =>
    refine ⟨c, hc, ?_⟩
    cases hd : decode c with
    | ok j => rw [hd] at h; cases h; rfl
    | error r => rw [hd] at h; cases h
  · cases h

/-- The host step that issues an encoding runs what it decodes to. -/
theorem step_issue {c : Code} {i : Instr} (h : decode c = .ok i) (s : State) :
    step { s with inbox := issue c ++ s.inbox } = exec i { s with answer := .nothing } := by
  cases c with
  | command w => exact hostWrite_of_decodeCommand h _
  | flags f =>
    obtain ⟨k, hk, rfl⟩ := decodeFlags_ok h
    rw [issue, hk]
    rfl

/-- Settles O4: a write of a command word to `CMD` is `hostWrite_of_decodeCommand`, a kind test performs its row, and a
table word is issued as one of these two. -/
theorem stepRunsTheDecodedInstruction : Obligations.StepRunsTheDecodedInstruction := by
  refine ⟨fun s w i rest hi h => ?_, fun s k f rest hi => step_of_inbox hi, fun s nbits w i h => ?_⟩
  · exact (step_of_inbox hi).trans (hostWrite_of_decodeCommand h _)
  · obtain ⟨c, hc, hd⟩ := decodeTableWord_eq_some h
    rw [State.withFetchWord, hc]
    exact step_issue hd s

/-! ### The kind rows (R171 to R178) -/

/-- Settles O21: each row answers its predicate, which the lemmas `isSyn_eq` to `isData_eq` write as R171 to R177 do. -/
theorem kindTestsAnswerTheirPredicates : Obligations.KindTestsAnswerTheirPredicates := by
  intro f s
  rw [← isSyn_eq, ← isSynack_eq, ← isAck_eq, ← isFin_eq, ← isFinack_eq, ← isNack_eq, ← isData_eq]
  exact ⟨rfl, rfl, rfl, rfl, rfl, rfl, rfl⟩

/-- Clearing flags outside a mask does not change whether the mask's flags are set. -/
theorem hasFlags_and_of_subset (f : Byte) {m keep : Byte} (h : keep &&& m = m) :
    hasFlags (f &&& keep) m = hasFlags f m := by
  rw [hasFlags, BitVec.and_assoc, h, hasFlags]

/-- No predicate looks at the reserved flags `SYN_ACK` (0x02) and `RST` (0x20). -/
theorem kindBits_and_unreserved (f : Byte) : kindBits (f &&& 0xDD) = kindBits f := by
  simp only [kindBits, isSyn, isSynack, isAck, isFin, isFinack, isNack, isData]
  repeat rw [hasFlags_and_of_subset f (by decide)]

/-- Settles O23: with the reserved flags cleared or set, the unreserved flags are the same. -/
theorem reservedFlagsNeverChangeTheKind : Obligations.ReservedFlagsNeverChangeTheKind := by
  intro f
  have unreserved : (f ||| 0x22) &&& 0xDD = f &&& 0xDD := by
    rw [BitVec.and_or_distrib_right, show (0x22 &&& 0xDD : Byte) = 0#8 from rfl, BitVec.or_zero]
  refine ⟨(kindBits_and_unreserved f).symm, ?_⟩
  rw [← kindBits_and_unreserved, unreserved, kindBits_and_unreserved]

end Sys2Proof
end

section
/-! SUPPORT. The statements about the arithmetic of the checksum (`40_checksum.md`): the fold, the bound of the running
sum, end-around carry, and which changes of a byte string the checksum detects. -/

namespace Sys2Proof.Machine
open Sys2Proof.Certificates

/-! ### The fold (R131, R133) -/

theorem fold_of_lt {v : Nat} (h : v < 0x10000) : fold v = v := by
  rw [fold_eq, if_neg (by omega)]

theorem fold_mod {v : Nat} (h : v < 2 ^ 32) : fold v % 65535 = v % 65535 := by
  rw [fold_eq_pred_mod h]
  split <;> omega

theorem fold_eq_zero_iff {v : Nat} (h : v < 2 ^ 32) : fold v = 0 ↔ v = 0 := by
  rw [fold_eq_pred_mod h]
  split <;> omega

theorem fold_le (v : Nat) : fold v ≤ v := by
  rw [fold_eq]
  split
  · split <;> omega
  · exact le_rfl

/-- The fold depends on the residue modulo 65535 and on being 0 only. -/
theorem fold_congr {v w : Nat} (hv : v < 2 ^ 32) (hw : w < 2 ^ 32) (hmod : v % 65535 = w % 65535)
    (hzero : v = 0 ↔ w = 0) : fold v = fold w := by
  rw [fold_eq_pred_mod hv, fold_eq_pred_mod hw]
  simp only [hzero]
  split <;> omega

/-- Settles O6: the loop step keeps the residue modulo 65535 and never makes or loses a 0. -/
theorem foldIsTheEndAroundFold : Obligations.FoldIsTheEndAroundFold := by
  intro v h
  exact ⟨fold_of_lt, fun hv => fold_congr h (by omega) (by omega) (by omega), fold_eq_pred_mod h, fold_mod h,
    fold_eq_allOnes_iff h, fold_eq_zero_iff h⟩

/-- A partial sum may be folded early. -/
theorem fold_fold_add {v w : Nat} (h : v + w < 2 ^ 32) : fold (fold v + w) = fold (v + w) := by
  have hv : v < 2 ^ 32 := by omega
  have hlt := fold_lt hv
  have hmod := fold_mod hv
  have hzero := fold_eq_zero_iff hv
  have hle := fold_le v
  exact fold_congr (by omega) h (by omega) (by omega)

/-! ### The bound of the running sum (R133) -/

/-- Every whole word is at most 65535. -/
theorem wsum_le_words_add_tailWord (pad : OddPad) :
    ∀ b : List Byte, wsum pad b ≤ 65535 * (b.length / 2) + tailWord pad b
  | [] => Nat.zero_le _
  | [x] => by simp [wsum, tailWord]
  | x :: y :: r => by
    have rest := wsum_le_words_add_tailWord pad r
    have hx := x.isLt
    have hy := y.isLt
    rw [wsum_cons_cons, tailWord_cons_cons, List.length_cons, List.length_cons]
    omega

theorem tailWord_le (pad : OddPad) (b : List Byte) : tailWord pad b ≤ 0xFF00 := by
  unfold tailWord
  split
  · exact Nat.zero_le _
  · exact oddTail_le pad _

theorem tailWord_zext_le (b : List Byte) : tailWord .zext b ≤ 0xFF := by
  unfold tailWord
  split
  · exact Nat.zero_le _
  · exact Nat.le_of_lt_succ (b.getD (b.length - 1) 0).isLt

theorem wsum_add_le (pad : OddPad) {b : List Byte} (h : b.length ≤ 65535) (c : Half) :
    wsum pad b + c.toNat ≤ 0x80007F00 := by
  have hw := wsum_le_words_add_tailWord pad b
  have ht := tailWord_le pad b
  have hc := c.isLt
  omega

/-- Settles O7: at most 32767 whole words, and the tail of the pad. -/
theorem runningSumStaysBelowItsBound : Obligations.RunningSumStaysBelowItsBound := by
  intro pad b c h
  have hw := wsum_le_words_add_tailWord pad b
  have ht := tailWord_le pad b
  refine ⟨by omega, ?_, wsum_add_le pad h c⟩
  rintro rfl
  have htz := tailWord_zext_le b
  omega

/-! ### End-around carry (R133) -/

theorem addEndAround_eq_fold {a w : Nat} (ha : a < 0x10000) (hw : w < 0x10000) : addEndAround a w = fold (a + w) := by
  rw [addEndAround, fold_eq_pred_mod (by omega)]
  split <;> split <;> omega

theorem endAround_singleton (pad : OddPad) (a : Nat) (x : Byte) :
    endAround pad a [x] = addEndAround a (oddTail pad x) := by cases pad <;> rfl

/-- From any 16-bit register value the words are added as to an unfolded sum, which is folded at the end. -/
theorem endAround_eq_fold (pad : OddPad) : ∀ (a : Nat) (b : List Byte), a < 0x10000 → a + wsum pad b < 2 ^ 32 →
    endAround pad a b = fold (a + wsum pad b)
  | a, [], ha, _ => (fold_of_lt ha).symm
  | a, [x], ha, _ => by
    have hx := oddTail_le pad x
    rw [endAround_singleton, addEndAround_eq_fold ha (by omega), wsum]
  | a, x :: y :: r, ha, h => by
    have hx := x.isLt
    have hy := y.isLt
    rw [wsum_cons_cons, ← Nat.add_assoc] at h ⊢
    have hlt : a + (x.toNat * 256 + y.toNat) < 2 ^ 32 := by omega
    have hle := fold_le (a + (x.toNat * 256 + y.toNat))
    rw [endAround, addEndAround_eq_fold ha (by omega), endAround_eq_fold pad _ r (fold_lt hlt) (by omega),
      fold_fold_add h]

/-- Settles O8: the register starts at 0. -/
theorem endAroundCarryRefinesTheFoldedSum : Obligations.EndAroundCarryRefinesTheFoldedSum := by
  intro pad b h
  have hb := wsum_lt pad h
  rw [endAround_eq_fold pad 0 b (by decide) (by omega), Nat.zero_add]

/-! ### The computed checksum, and exchanged words (R135, R139) -/

theorem compute_toNat (pad : OddPad) (b : List Byte) : (BitVec.ofNat 16 (compute pad b)).toNat = compute pad b := by
  rw [BitVec.toNat_ofNat, Nat.mod_eq_of_lt (compute_lt pad b)]

/-- Settles O9: the checksum completes the sum to a positive multiple of 65535. -/
theorem verifyAcceptsTheComputedChecksum : Obligations.VerifyAcceptsTheComputedChecksum := by
  intro pad b h
  have hb := wsum_lt pad h
  have hlt := fold_lt hb
  have hmod := fold_mod hb
  have hzero := fold_eq_zero_iff hb
  rw [verify_iff_dvd pad h, compute_toNat, compute]
  omega

/-- Settles O12: the sum of aligned pieces is the sum of their sums. -/
theorem wordSwapIsNotDetected : Obligations.WordSwapIsNotDetected := by
  intro pad x m y a b c d hx hm
  have same : wsum pad (swapWords x m y a b c d).1 = wsum pad (swapWords x m y a b c d).2 := by
    simp only [swapWords, List.append_assoc, List.cons_append, List.nil_append, wsum_append pad x _ hx,
      wsum_append pad m _ hm, wsum_cons_cons]
    omega
  exact ⟨same, fun k => by rw [verify, verify, same]⟩

/-! ### Flipped bits (R140) -/

/-- Two numbers whose difference is a power of two below 2^16. -/
def OneBitApart (v w : Nat) : Prop := ∃ m < 16, v + 2 ^ m = w ∨ w + 2 ^ m = v

theorem OneBitApart.add_left {v w : Nat} (h : OneBitApart v w) (k : Nat) : OneBitApart (k + v) (k + w) := by
  obtain ⟨m, hm, h | h⟩ := h
  · exact ⟨m, hm, .inl (by omega)⟩
  · exact ⟨m, hm, .inr (by omega)⟩

theorem OneBitApart.add_right {v w : Nat} (h : OneBitApart v w) (k : Nat) : OneBitApart (v + k) (w + k) := by
  rw [Nat.add_comm v, Nat.add_comm w]
  exact h.add_left k

/-- No power of two below 2^16 is a multiple of 65535. -/
theorem OneBitApart.not_dvd {v w : Nat} (h : OneBitApart v w) (hv : 65535 ∣ v) : ¬ 65535 ∣ w := by
  obtain ⟨m, hm, h⟩ := h
  have hpos : 0 < 2 ^ m := Nat.two_pow_pos m
  have hle : 2 ^ m ≤ 2 ^ 15 := Nat.pow_le_pow_right Nat.two_pos (by omega)
  omega

/-- Setting a clear bit adds its power of two. -/
theorem toNat_xor_of_clear {n : Nat} {x : BitVec n} {j : Nat} (hj : j < n) (h : x.getLsbD j = false) :
    (x ^^^ (1#n <<< j)).toNat = x.toNat + 2 ^ j := by
  rw [← BitVec.twoPow_eq]
  have disjoint : x &&& BitVec.twoPow n j = 0#n := by rw [BitVec.and_twoPow, h]; rfl
  have xor_eq_add : x ^^^ BitVec.twoPow n j = x + BitVec.twoPow n j := by
    rw [BitVec.add_eq_or_of_and_eq_zero x _ disjoint]
    ext i hi
    have hbit := congrArg (·[i]) disjoint
    simp only [BitVec.getElem_and, BitVec.getElem_zero] at hbit
    simp only [BitVec.getElem_xor, BitVec.getElem_or]
    revert hbit
    cases x[i] <;> cases (BitVec.twoPow n j)[i] <;> decide
  rw [xor_eq_add, BitVec.toNat_add_of_and_eq_zero disjoint, BitVec.toNat_twoPow_of_lt hj]

theorem xor_apart {n : Nat} (x : BitVec n) {j : Nat} (hj : j < n) :
    (x ^^^ (1#n <<< j)).toNat = x.toNat + 2 ^ j ∨ (x ^^^ (1#n <<< j)).toNat + 2 ^ j = x.toNat := by
  cases h : x.getLsbD j with
  | false => exact .inl (toNat_xor_of_clear hj h)
  | true =>
    right
    have clear : (x ^^^ (1#n <<< j)).getLsbD j = false := by simp [h, hj]
    rw [← toNat_xor_of_clear hj clear, BitVec.xor_assoc, BitVec.xor_self, BitVec.xor_zero]

theorem oneBitApart_flip {n : Nat} (x : BitVec n) {j e : Nat} (hj : j < n) (he : j + e < 16) :
    OneBitApart (x.toNat * 2 ^ e) ((x ^^^ (1#n <<< j)).toNat * 2 ^ e) := by
  refine ⟨j + e, he, ?_⟩
  rw [pow_add, ← Nat.add_mul, ← Nat.add_mul]
  rcases xor_apart x hj with h | h
  · exact .inl (by rw [h])
  · exact .inr (by rw [h])

/-- The high byte of a word, or the tail of `RFC_HIGH`, moves the sum by a bit 8 to 15; the low byte by a bit 0 to 7. -/
theorem oneBitApart_wsum_set (pad : OddPad) : ∀ (b : List Byte) (k : Nat) (h : k < b.length) (j : Nat), j < 8 →
    OneBitApart (wsum pad b) (wsum pad (b.set k (b[k] ^^^ (1#8 <<< j))))
  | [], _, h, _, _ => absurd h (Nat.not_lt_zero _)
  | [x], k, h, j, hj => by
    obtain rfl : k = 0 := by simpa using h
    cases pad with
    | zext => simpa [wsum, oddTail] using oneBitApart_flip x (e := 0) hj (by omega)
    | rfcHigh => exact oneBitApart_flip x (e := 8) hj (by omega)
  | x :: y :: r, 0, _, j, hj => ((oneBitApart_flip x (e := 8) hj (by omega)).add_right _).add_right _
  | x :: y :: r, 1, _, j, hj => by
    have low := oneBitApart_flip y (e := 0) hj (by omega)
    rw [pow_zero, Nat.mul_one, Nat.mul_one] at low
    exact (low.add_left _).add_right _
  | x :: y :: r, k + 2, h, j, hj =>
    (oneBitApart_wsum_set pad r k (by simpa using h) j hj).add_left _

/-- Settles O13: a flip moves a verified sum off the multiples of 65535. -/
theorem singleBitFlipsAreDetected : Obligations.SingleBitFlipsAreDetected := by
  intro pad b c h hv
  obtain ⟨-, hd⟩ := (verify_iff_dvd pad h c).1 hv
  refine ⟨fun k hk j hj => ?_, fun j hj => ?_⟩
  · have apart := (oneBitApart_wsum_set pad b k hk j hj).add_right c.toNat
    rw [← Bool.not_eq_true, verify_iff_dvd pad (by rw [List.length_set]; exact h), not_and]
    exact fun _ => apart.not_dvd hd
  · have apart := (oneBitApart_flip c (e := 0) hj (by omega)).add_left (wsum pad b)
    rw [pow_zero, Nat.mul_one, Nat.mul_one] at apart
    rw [← Bool.not_eq_true, verify_iff_dvd pad h, not_and]
    exact fun _ => apart.not_dvd hd

end Sys2Proof.Machine
end

section
/-! SUPPORT. The statements about every step (`10_state.md`, `70_reset_and_hazards.md`): the invariant, that a step
completes and takes one host step, and that only the host writes the payload. -/

namespace Sys2Proof.Machine
open Sys2Proof.Certificates

/-! ### The invariant under the shared operations -/

/-- Settles O47, field by field: reset is a literal state. -/
theorem resetMeetsTheInvariant : Obligations.ResetMeetsTheInvariant where
  canonical := List.Pairwise.nil
  inBuffer := nofun
  errCode := by decide
  codeLegal := by decide
  verdict := nofun
  outcome := by decide
  noRuntVerdict := nofun
  kindValid := fun h => absurd rfl h
  kindOfFlags := ⟨0, by decide⟩
  accBound := by decide

theorem code_ne_zero (c : FaultCode) : c.code ≠ 0 := by cases c <;> decide

theorem code_toNat_le (c : FaultCode) : c.code.toNat ≤ 4 := by cases c <;> decide

theorem kindBits_zero : kindBits 0 = 0 := by decide

theorem raise_inv {s : State} (h : s.Inv) (c : FaultCode) : (raise c s).Inv := by
  cases he : s.err with
  | true => rwa [raise_of_faulted he]
  | false =>
    rw [raise_of_clean he]
    exact { h with
      errCode := ⟨nofun, fun hc => absurd hc (code_ne_zero c)⟩
      codeLegal := code_toNat_le c }

theorem violation_inv {s : State} (h : s.Inv) (a : Answer) : (violation s a).Inv :=
  { raise_inv h .access with }

theorem softReset_inv {s : State} (h : s.Inv) : (softReset s).Inv :=
  { resetMeetsTheInvariant with
    canonical := h.canonical
    inBuffer := h.inBuffer }

theorem answering_inv {s : State} (h : s.Inv) (a : Answer) : (s.answering a).Inv := { h with }

theorem taking_inv {s : State} (h : s.Inv) (rest : List HostStep) : (s.taking rest).Inv := { h with }

theorem drawn_inv {s : State} (h : s.Inv) (n : Nat) : (s.drawn n).Inv := { h with }

theorem takeHeader_inv {s : State} (h : s.Inv) (draw : Nat) : (takeHeader s draw).Inv := { h with }

theorem withCks_inv {s : State} (h : s.Inv) (c : Half) : ({ s with cks := c } : State).Inv := { h with }

theorem writeReg_inv {s t : State} {v : Word} {r : Reg} (h : s.Inv) (hw : s.writeReg v r = some t) : t.Inv := by
  rcases writeReg_cases hw with ⟨-, rfl⟩ | ⟨-, rfl⟩ | ⟨-, rfl⟩ | ⟨-, rfl⟩ | ⟨-, rfl⟩ <;> exact { h with }

theorem store_inv {s : State} (h : s.Inv) {i : Nat} (hi : i < s.bufSize) (v : Byte) :
    ({ s with buf := s.buf.store i v } : State).Inv :=
  { h with
    canonical := store_wf h.canonical i v
    inBuffer := fun c hc => (mem_store hc).elim (fun e => e ▸ hi) (h.inBuffer c) }

/-- The header's five indices are below `BUF_SIZE` in every configuration. -/
theorem putHeader_inv {s : State} (h : s.Inv) (c : Half) : (putHeader s c).Inv :=
  { h with
    canonical := storeBytes_wf h.canonical 0 _
    inBuffer := fun d hd => by
      rcases mem_storeBytes hd with ⟨-, hlt⟩ | hd
      · rw [headerBytes_length] at hlt
        have size := bufSize_eq (putHeader s c)
        omega
      · exact h.inBuffer d hd }

/-! ### The invariant under the result group and the sum registers (R28 to R31, R33) -/

theorem setResults_none_inv {s : State} (h : s.Inv) (runt : Bool) : (setResults false runt 0 s).Inv :=
  { h with
    verdict := nofun
    noRuntVerdict := fun _ => rfl
    kindValid := fun hk => absurd rfl hk
    kindOfFlags := ⟨0, kindBits_zero.symm⟩ }

theorem clearResults_inv {s : State} (h : s.Inv) : (clearResults s).Inv := setResults_none_inv h false

/-- A sum within its bound, shown with its fold or the complement of it, and a verdict that is given for all ones. -/
theorem setResults_showSum_inv {s : State} (h : s.Inv) {sum outcome : Nat} {valid : Bool} {kind : BitVec 7}
    (hsum : sum ≤ 0x80007F00) (hout : outcome = fold sum ∨ outcome = 0xFFFF - fold sum)
    (hvalid : valid = true → outcome = 0xFFFF ∧ fold sum = 0xFFFF) (hkind : kind ≠ 0 → valid = true)
    (hflags : ∃ f : Byte, kind = kindBits f) : (setResults valid false kind (showSum sum outcome s)).Inv := by
  have hfold : fold sum < 0x10000 := fold_lt (by omega)
  have acc : (BitVec.ofNat 32 sum).toNat = sum := by rw [BitVec.toNat_ofNat, Nat.mod_eq_of_lt (by omega)]
  have res : (BitVec.ofNat 16 outcome).toNat = outcome := by rw [BitVec.toNat_ofNat, Nat.mod_eq_of_lt (by omega)]
  refine { h with verdict := ?_, outcome := ?_, noRuntVerdict := nofun, kindValid := hkind, kindOfFlags := hflags,
                  accBound := ?_ }
  · intro hv
    obtain ⟨rfl, hf⟩ := hvalid hv
    exact ⟨rfl, by rwa [setResults_acc, showSum_acc, acc]⟩
  · rwa [setResults_res, setResults_acc, showSum_res, showSum_acc, acc, res]
  · rwa [setResults_acc, showSum_acc, acc]

theorem clearResults_showSum_inv {s : State} (h : s.Inv) {sum outcome : Nat} (hsum : sum ≤ 0x80007F00)
    (hout : outcome = fold sum ∨ outcome = 0xFFFF - fold sum) : (clearResults (showSum sum outcome s)).Inv :=
  setResults_showSum_inv h hsum hout nofun (fun hk => absurd rfl hk) ⟨0, kindBits_zero.symm⟩

theorem wsum_frame_add_le (s : State) (draw : Nat) (c : Half) :
    wsum s.cfg.oddPad (frameBytes s draw) + c.toNat ≤ 0x80007F00 :=
  wsum_add_le _ (by rw [frameBytes_length]; exact Nat.le_of_lt_succ s.len.isLt) c

theorem wsum_frame_le (s : State) (draw : Nat) : wsum s.cfg.oddPad (frameBytes s draw) ≤ 0x80007F00 :=
  Nat.le_trans (Nat.le_add_right _ _) (wsum_frame_add_le s draw 0)

theorem wsum_image_le {s : State} (hp : s.plen.toNat ≤ s.cfg.maxPacketSize.val) (seq cks : Half) (flg : Byte)
    (draw : Nat) : wsum s.cfg.oddPad (headerBytes seq cks flg ++ payloadBytes s draw) ≤ 0x80007F00 := by
  have hb := bufSize_le s
  rw [bufSize_eq] at hb
  refine Nat.le_trans (Nat.le_add_right _ _) (wsum_add_le _ ?_ 0)
  rw [List.length_append, headerBytes_length, payloadBytes_length]
  omega

/-! ### The invariant under every instruction and every step -/

theorem exec_inv {i : Instr} {s t : State} (hs : s.Inv) (h : exec i s = .next t) : t.Inv := by
  cases i with
  | csumCompute =>
    rcases execCsumCompute_cases h with ⟨-, rfl⟩ | ⟨-, -, rfl⟩ | ⟨-, -, rfl⟩
    · exact hs
    · exact raise_inv hs _
    · exact clearResults_showSum_inv (drawn_inv hs 1) (wsum_frame_le s _) (.inr rfl)
  | csumVerify =>
    rcases execCsumVerify_cases h with ⟨-, rfl⟩ | ⟨-, -, rfl⟩ | ⟨-, -, rfl⟩
    · exact hs
    · exact raise_inv hs _
    · refine setResults_showSum_inv (drawn_inv hs 1) (wsum_frame_add_le s _ s.cks) (.inl rfl) (fun hv => ?_)
        (fun hk => absurd rfl hk) ⟨0, kindBits_zero.symm⟩
      exact ⟨beq_iff_eq.1 hv, beq_iff_eq.1 hv⟩
  | hdrPack =>
    rcases execHdrPack_cases h with ⟨-, rfl⟩ | ⟨-, -, rfl⟩ | ⟨-, -, rfl⟩
    · exact hs
    · exact raise_inv hs _
    · exact clearResults_inv (putHeader_inv hs _)
  | hdrUnpack =>
    rcases execHdrUnpack_cases h with ⟨-, rfl⟩ | ⟨-, -, rfl⟩ | ⟨-, -, rfl⟩ | ⟨-, -, -, rfl⟩
    · exact hs
    · exact raise_inv hs _
    · exact setResults_none_inv hs true
    · exact clearResults_inv (drawn_inv (takeHeader_inv hs _) 1)
  | pktEncode =>
    rcases execPktEncode_cases h with ⟨-, rfl⟩ | ⟨-, -, rfl⟩ | ⟨-, hp, f0, c, rfl, rfl, rfl⟩
    · exact hs
    · exact raise_inv hs _
    · exact clearResults_showSum_inv (withCks_inv (drawn_inv (putHeader_inv hs _) 1) _) (wsum_image_le hp _ _ _ _)
        (.inr rfl)
  | pktDecode =>
    rcases execPktDecode_cases h with
      ⟨-, rfl⟩ | ⟨-, -, rfl⟩ | ⟨-, -, rfl⟩ | ⟨-, -, -, w, ok, rfl, rfl, rfl⟩
    · exact hs
    · exact raise_inv hs _
    · exact setResults_none_inv hs true
    · refine setResults_showSum_inv (drawn_inv (takeHeader_inv hs _) 3) (wsum_frame_le s _) (.inl rfl)
        (fun hv => ⟨beq_iff_eq.1 hv, beq_iff_eq.1 hv⟩) (fun hk => ?_) ?_
      · by_contra hv
        exact hk (if_neg hv)
      · split
        · exact ⟨_, rfl⟩
        · exact ⟨0, kindBits_zero.symm⟩
  | srst => rw [execSrst_cases h]; exact softReset_inv hs
  | kSyn f | kSynack f | kAck f | kFin f | kFinack f | kNack f | kData f => cases h; exact answering_inv hs _

theorem issueCommand_inv {v : Word} {s t : State} (hs : s.Inv) (h : issueCommand v s = .next t) : t.Inv := by
  rcases issueCommand_cases h with ⟨i, -, hi⟩ | ⟨-, rfl⟩
  · exact exec_inv hs hi
  · exact raise_inv hs _

theorem hostWrite_inv {a : Addr} {v : Word} {s t : State} (hs : s.Inv) (h : hostWrite a v s = .next t) : t.Inv := by
  rcases hostWrite_cases h with ⟨-, -, -, rfl⟩ | ⟨-, -, rfl⟩ | ⟨-, -, hi⟩ | ⟨-, r, -, -, hw⟩ | ⟨-, -, rfl⟩
  · exact softReset_inv hs
  · exact hs
  · exact issueCommand_inv hs hi
  · exact writeReg_inv hs hw
  · exact violation_inv hs _

theorem perform_inv {x : HostStep} {s t : State} (hs : s.Inv) (h : perform x s = .next t) : t.Inv := by
  cases x with
  | wr a v => exact hostWrite_inv hs h
  | rd a =>
    rcases hostRead_cases h with ⟨r, v, -, -, rfl⟩ | ⟨-, rfl⟩
    · exact answering_inv hs _
    · exact violation_inv hs _
  | wrb a v =>
    rcases hostWriteByte_cases h with ⟨-, rfl⟩ | ⟨-, i, hi, rfl⟩ | ⟨-, -, rfl⟩
    · exact hs
    · exact store_inv hs (bufIndex_eq_some.1 hi).2 v
    · exact violation_inv hs _
  | rdb a =>
    rcases hostReadByte_cases h with ⟨i, -, rfl⟩ | ⟨-, rfl⟩
    · exact answering_inv (drawn_inv hs 1) _
    · exact violation_inv hs _
  | test k f => exact exec_inv hs h

/-- Settles O48: a taken host step is performed from a state that meets the invariant, and `perform` keeps it. -/
theorem everyStepKeepsTheInvariant : Obligations.EveryStepKeepsTheInvariant := by
  intro s t hs h
  rcases step_cases h with ⟨-, rfl⟩ | ⟨x, rest, -, hx⟩
  · exact hs
  · exact perform_inv (taking_inv hs rest) hx

/-! ### Every step completes (R224, R252, R262) -/

/-- No arm of any meaning is a fault outcome or a refusal. -/
theorem exec_completes (i : Instr) (s : State) : ∃ t, exec i s = .next t := by
  cases i with
  | csumCompute | csumVerify => exact unlessFaulted_completes (checkLen_completes ⟨_, rfl⟩)
  | hdrPack | pktEncode => exact unlessFaulted_completes (checkPlen_completes ⟨_, rfl⟩)
  | hdrUnpack | pktDecode => exact unlessFaulted_completes (checkLen_completes (unlessRunt_completes ⟨_, rfl⟩))
  | srst | kSyn f | kSynack f | kAck f | kFin f | kFinack f | kNack f | kData f => exact ⟨_, rfl⟩

theorem issueCommand_completes (v : Word) (s : State) : ∃ t, issueCommand v s = .next t := by
  unfold issueCommand
  split
  · exact exec_completes _ s
  · exact ⟨_, rfl⟩

theorem writeSlot_completes (r : Reg) (v : Word) (s : State) : ∃ t, writeSlot r v s = .next t := by
  unfold writeSlot
  split
  · exact issueCommand_completes v s
  · split <;> exact ⟨_, rfl⟩

theorem hostWrite_completes (a : Addr) (v : Word) (s : State) : ∃ t, hostWrite a v s = .next t := by
  unfold hostWrite
  split
  · split <;> exact ⟨_, rfl⟩
  · split
    · exact writeSlot_completes _ v s
    · exact ⟨_, rfl⟩

theorem hostRead_completes (a : Addr) (s : State) : ∃ t, hostRead a s = .next t := by
  unfold hostRead
  split <;> exact ⟨_, rfl⟩

theorem hostWriteByte_completes (a : Addr) (v : Byte) (s : State) : ∃ t, hostWriteByte a v s = .next t := by
  unfold hostWriteByte
  split
  · exact ⟨_, rfl⟩
  · split <;> exact ⟨_, rfl⟩

theorem hostReadByte_completes (a : Addr) (s : State) : ∃ t, hostReadByte a s = .next t := by
  unfold hostReadByte
  split <;> exact ⟨_, rfl⟩

theorem perform_completes (x : HostStep) (s : State) : ∃ t, perform x s = .next t := by
  cases x with
  | wr a v => exact hostWrite_completes a v s
  | rd a => exact hostRead_completes a s
  | wrb a v => exact hostWriteByte_completes a v s
  | rdb a => exact hostReadByte_completes a s
  | test k f => exact exec_completes _ s

/-! ### What no instruction touches: the inbox, and the payload (R42, log 1) -/

/-- The inbox and every byte from index 5 on are as before. -/
def sameInboxAndPayload (s t : State) : Prop := t.inbox = s.inbox ∧ ∀ j, 5 ≤ j → t.buf.byteAt j = s.buf.byteAt j

theorem sameInboxAndPayload_of_eq {s t : State} (hi : t.inbox = s.inbox) (hb : t.buf = s.buf) :
    sameInboxAndPayload s t := ⟨hi, fun _ _ => by rw [hb]⟩

/-- The marshalling commands store the header only; the others store nothing. -/
theorem exec_sameInboxAndPayload {i : Instr} {s t : State} (h : exec i s = .next t) : sameInboxAndPayload s t := by
  cases i with
  | csumCompute =>
    rcases execCsumCompute_cases h with ⟨-, rfl⟩ | ⟨-, -, rfl⟩ | ⟨-, -, rfl⟩ <;>
      exact sameInboxAndPayload_of_eq (by simp) (by simp)
  | csumVerify =>
    rcases execCsumVerify_cases h with ⟨-, rfl⟩ | ⟨-, -, rfl⟩ | ⟨-, -, rfl⟩ <;>
      exact sameInboxAndPayload_of_eq (by simp) (by simp)
  | hdrPack =>
    rcases execHdrPack_cases h with ⟨-, rfl⟩ | ⟨-, -, rfl⟩ | ⟨-, -, rfl⟩
    · exact sameInboxAndPayload_of_eq rfl rfl
    · exact sameInboxAndPayload_of_eq (raise_inbox _ s) (raise_buf _ s)
    · exact ⟨rfl, fun j hj => byteAt_putHeader s _ hj⟩
  | hdrUnpack =>
    rcases execHdrUnpack_cases h with ⟨-, rfl⟩ | ⟨-, -, rfl⟩ | ⟨-, -, rfl⟩ | ⟨-, -, -, rfl⟩ <;>
      exact sameInboxAndPayload_of_eq (by simp) (by simp)
  | pktEncode =>
    rcases execPktEncode_cases h with ⟨-, rfl⟩ | ⟨-, -, rfl⟩ | ⟨-, -, f0, c, -, -, rfl⟩
    · exact sameInboxAndPayload_of_eq rfl rfl
    · exact sameInboxAndPayload_of_eq (raise_inbox _ s) (raise_buf _ s)
    · exact ⟨rfl, fun j hj => byteAt_putHeader s _ hj⟩
  | pktDecode =>
    rcases execPktDecode_cases h with ⟨-, rfl⟩ | ⟨-, -, rfl⟩ | ⟨-, -, rfl⟩ | ⟨-, -, -, w, ok, -, -, rfl⟩ <;>
      exact sameInboxAndPayload_of_eq (by simp) (by simp)
  | srst => rw [execSrst_cases h]; exact sameInboxAndPayload_of_eq rfl rfl
  | kSyn f | kSynack f | kAck f | kFin f | kFinack f | kNack f | kData f =>
    cases h; exact sameInboxAndPayload_of_eq rfl rfl

theorem hostWrite_sameInboxAndPayload {a : Addr} {v : Word} {s t : State} (h : hostWrite a v s = .next t) :
    sameInboxAndPayload s t := by
  rcases hostWrite_cases h with ⟨-, -, -, rfl⟩ | ⟨-, -, rfl⟩ | ⟨-, -, hi⟩ | ⟨-, r, -, -, hw⟩ | ⟨-, -, rfl⟩
  · exact sameInboxAndPayload_of_eq rfl rfl
  · exact sameInboxAndPayload_of_eq rfl rfl
  · rcases issueCommand_cases hi with ⟨i, -, hx⟩ | ⟨-, rfl⟩
    · exact exec_sameInboxAndPayload hx
    · exact sameInboxAndPayload_of_eq (raise_inbox _ s) (raise_buf _ s)
  · rcases writeReg_cases hw with ⟨-, rfl⟩ | ⟨-, rfl⟩ | ⟨-, rfl⟩ | ⟨-, rfl⟩ | ⟨-, rfl⟩ <;>
      exact sameInboxAndPayload_of_eq rfl rfl
  · exact sameInboxAndPayload_of_eq (violation_inbox s _) (violation_buf s _)

/-- A host step keeps both, or is a 1-byte write that stores its byte at the index its address names. -/
theorem perform_payload_cases {x : HostStep} {s t : State} (h : perform x s = .next t) :
    sameInboxAndPayload s t ∨
      ∃ a v i, x = .wrb a v ∧ a.toNat = 0x10000 + i ∧ t = { s with buf := s.buf.store i v } := by
  cases x with
  | wr a v => exact .inl (hostWrite_sameInboxAndPayload h)
  | rd a =>
    left
    rcases hostRead_cases h with ⟨r, v, -, -, rfl⟩ | ⟨-, rfl⟩ <;>
      exact sameInboxAndPayload_of_eq (by simp) (by simp)
  | wrb a v =>
    rcases hostWriteByte_cases h with ⟨-, rfl⟩ | ⟨-, i, hi, rfl⟩ | ⟨-, -, rfl⟩
    · exact .inl (sameInboxAndPayload_of_eq rfl rfl)
    · exact .inr ⟨a, v, i, rfl, (bufIndex_eq_some.1 hi).1, rfl⟩
    · exact .inl (sameInboxAndPayload_of_eq (violation_inbox s _) (violation_buf s _))
  | rdb a =>
    left
    rcases hostReadByte_cases h with ⟨i, -, rfl⟩ | ⟨-, rfl⟩ <;>
      exact sameInboxAndPayload_of_eq (by simp) (by simp)
  | test k f => exact .inl (exec_sameInboxAndPayload h)

theorem perform_inbox {x : HostStep} {s t : State} (h : perform x s = .next t) : t.inbox = s.inbox := by
  rcases perform_payload_cases h with ⟨hi, -⟩ | ⟨a, v, i, -, -, rfl⟩
  · exact hi
  · rfl

/-- Settles O46: `perform` completes and leaves the inbox as the taken step left it. -/
theorem everyStepCompletes : Obligations.EveryStepCompletes := by
  refine ⟨fun s => ?_, fun s hi => by rw [step, hi]⟩
  cases hi : s.inbox with
  | nil => exact ⟨s, by rw [step, hi], nofun⟩
  | cons x rest =>
    obtain ⟨t, ht⟩ := perform_completes x (s.taking rest)
    refine ⟨t, (step_of_inbox hi).trans ht, ?_⟩
    rintro _ _ ⟨⟩
    exact perform_inbox ht

/-- Settles O27: the one step that does not keep the payload is the 1-byte write, which keeps every other byte. -/
theorem onlyTheHostWritesThePayload : Obligations.OnlyTheHostWritesThePayload := by
  intro s t j h hj
  rcases step_cases h with ⟨-, rfl⟩ | ⟨x, rest, hi, hx⟩
  · exact .inl rfl
  rcases perform_payload_cases hx with ⟨-, hb⟩ | ⟨a, v, i, rfl, ha, rfl⟩
  · exact .inl (hb j hj)
  · by_cases hji : j = i
    · subst hji
      exact .inr ⟨a, v, rest, hi, ha, byteAt_store_same _ _ _⟩
    · exact .inl (byteAt_store_other _ _ hji)

end Sys2Proof.Machine
end

section
/-! SUPPORT. The statements about what the commands leave unchanged (`40_checksum.md`, `41_framer.md`) and about register
writes (`20_memory.md`). -/

namespace Sys2Proof.Machine
open Sys2Proof.Certificates

theorem sameBuffer_of_eq {s t : State} (h : t.buf = s.buf) : sameBuffer s t := fun draw a => by rw [h]

/-- With `ERR` = 0 and no other reason to refuse, a command is executed. -/
theorem not_refused_or {s : State} {p : Prop} (he : s.err = false) (hp : ¬ p) : ¬ (s.err = true ∨ p) := by
  simp [he, hp]

/-! ### The checksum commands (R134, R136) -/

/-- Both checksum commands are refused, fault, or show some sum and give some verdict. -/
theorem exec_csum_cases {i : Instr} {s t : State} (hi : i = .csumCompute ∨ i = .csumVerify) (h : exec i s = .next t) :
    (s.err = true ∧ t = s) ∨ (s.err = false ∧ s.bufSize < s.len.toNat ∧ t = raise .len s) ∨
    (s.err = false ∧ s.len.toNat ≤ s.bufSize ∧
      ∃ valid sum outcome, t = setResults valid false 0 (showSum sum outcome (s.drawn 1))) := by
  rcases hi with rfl | rfl
  · rcases execCsumCompute_cases h with h | h | ⟨he, hl, rfl⟩
    · exact .inl h
    · exact .inr (.inl h)
    · exact .inr (.inr ⟨he, hl, _, _, _, rfl⟩)
  · rcases execCsumVerify_cases h with h | h | ⟨he, hl, rfl⟩
    · exact .inl h
    · exact .inr (.inl h)
    · exact .inr (.inr ⟨he, hl, _, _, _, rfl⟩)

/-- Settles O24, by the three outcomes of a checksum command. -/
theorem checksumCommandsFrame : Obligations.ChecksumCommandsFrame := by
  intro i s hi
  obtain ⟨t, h⟩ := exec_completes i s
  refine ⟨t, h, ?_⟩
  rcases exec_csum_cases hi h with ⟨he, rfl⟩ | ⟨he, hl, rfl⟩ | ⟨he, hl, valid, sum, outcome, rfl⟩
  · exact ⟨by simp [sameButResults], sameBuffer_of_eq rfl, by simp [he], by simp⟩
  · exact ⟨by simp [sameButResults], sameBuffer_of_eq (raise_buf _ s), by omega, by simp⟩
  · exact ⟨by simp [sameButResults], sameBuffer_of_eq rfl, by simp [he],
      fun hn => absurd hn (not_refused_or he (by omega))⟩

/-! ### The unmarshalling commands (R152, R158) -/

/-- Both unmarshalling commands are refused, fault, find a runt, or take the header's fields and show a result, for
`HDR.UNPACK` with the sum registers as they stand. -/
theorem exec_unmarshal_cases {i : Instr} {s t : State} (hi : i = .hdrUnpack ∨ i = .pktDecode)
    (h : exec i s = .next t) :
    (s.err = true ∧ t = s) ∨ (s.err = false ∧ s.bufSize < s.len.toNat ∧ t = raise .len s) ∨
    (s.err = false ∧ s.len.toNat < 5 ∧ t = setResults false true 0 s) ∨
    (s.err = false ∧ s.len.toNat ≤ s.bufSize ∧ 5 ≤ s.len.toNat ∧
      ∃ valid kind draw acc res d, (i = .hdrUnpack → acc = s.acc ∧ res = s.res) ∧
        t = setResults valid false kind { takeHeader s draw with acc := acc, res := res, draws := d }) := by
  rcases hi with rfl | rfl
  · rcases execHdrUnpack_cases h with h | h | h | ⟨he, hl, h5, rfl⟩
    · exact .inl h
    · exact .inr (.inl h)
    · exact .inr (.inr (.inl h))
    · exact .inr (.inr (.inr ⟨he, hl, h5, _, _, _, s.acc, s.res, _, fun _ => ⟨rfl, rfl⟩, rfl⟩))
  · rcases execPktDecode_cases h with h | h | h | ⟨he, hl, h5, w, ok, -, -, rfl⟩
    · exact .inl h
    · exact .inr (.inl h)
    · exact .inr (.inr (.inl h))
    · exact .inr (.inr (.inr ⟨he, hl, h5, _, _, _, _, _, _, nofun, rfl⟩))

/-- Settles O25, by the four outcomes of an unmarshalling command. -/
theorem unmarshalCommandsFrame : Obligations.UnmarshalCommandsFrame := by
  intro i s hi
  obtain ⟨t, h⟩ := exec_completes i s
  refine ⟨t, h, ?_⟩
  rcases exec_unmarshal_cases hi h with
    ⟨he, rfl⟩ | ⟨he, hl, rfl⟩ | ⟨he, hr, rfl⟩ | ⟨he, hl, h5, valid, kind, draw, acc, res, d, hsum, rfl⟩
  · exact ⟨rfl, rfl, rfl, rfl, sameBuffer_of_eq rfl, by simp, by simp [he], by simp⟩
  · exact ⟨by simp, by simp, by simp, by simp, sameBuffer_of_eq (raise_buf _ s), by simp, by omega, by simp⟩
  · exact ⟨rfl, rfl, rfl, rfl, sameBuffer_of_eq rfl, by simp, by simp [he, hr], by simp⟩
  · exact ⟨rfl, rfl, rfl, rfl, sameBuffer_of_eq rfl, hsum, by simp [he, h5],
      fun hn => absurd hn (not_refused_or he (by omega))⟩

/-! ### The marshalling commands (R150, R155) -/

/-- Both marshalling commands are refused, fault, or put a header with some checksum, for `HDR.PACK` with `CKS` and the
sum registers as they stand. -/
theorem exec_marshal_cases {i : Instr} {s t : State} (hi : i = .hdrPack ∨ i = .pktEncode) (h : exec i s = .next t) :
    (s.err = true ∧ t = s) ∨ (s.err = false ∧ s.cfg.maxPacketSize.val < s.plen.toNat ∧ t = raise .plen s) ∨
    (s.err = false ∧ s.plen.toNat ≤ s.cfg.maxPacketSize.val ∧
      ∃ cks acc res d, (i = .hdrPack → cks = s.cks ∧ acc = s.acc ∧ res = s.res) ∧
        t = clearResults { putHeader s cks with cks := cks, acc := acc, res := res, draws := d }) := by
  rcases hi with rfl | rfl
  · rcases execHdrPack_cases h with h | h | ⟨he, hp, rfl⟩
    · exact .inl h
    · exact .inr (.inl h)
    · exact .inr (.inr ⟨he, hp, s.cks, s.acc, s.res, s.draws, fun _ => ⟨rfl, rfl, rfl⟩, rfl⟩)
  · rcases execPktEncode_cases h with h | h | ⟨he, hp, f0, c, -, -, rfl⟩
    · exact .inl h
    · exact .inr (.inl h)
    · exact .inr (.inr ⟨he, hp, _, _, _, _, nofun, rfl⟩)

/-- Settles O26, by the three outcomes of a marshalling command; a byte past the header is `byteAt_putHeader`. -/
theorem marshalCommandsFrame : Obligations.MarshalCommandsFrame := by
  intro i s hi
  obtain ⟨t, h⟩ := exec_completes i s
  refine ⟨t, h, ?_⟩
  rcases exec_marshal_cases hi h with ⟨he, rfl⟩ | ⟨he, hp, rfl⟩ | ⟨he, hp, cks, acc, res, d, hsum, rfl⟩
  · exact ⟨rfl, rfl, rfl, rfl, rfl, rfl, fun _ _ _ => rfl, by simp, by simp [he],
      fun _ => ⟨sameBuffer_of_eq rfl, rfl, rfl, rfl, rfl⟩⟩
  · exact ⟨by simp, by simp, by simp, by simp, by simp, by simp, by simp, by simp, by omega,
      fun _ => ⟨sameBuffer_of_eq (raise_buf _ s), by simp⟩⟩
  · exact ⟨rfl, rfl, rfl, rfl, rfl, rfl, fun draw a ha => readByte_congr (byteAt_putHeader s cks ha) draw, hsum,
      fun _ _ => ⟨he, rfl, putHeader_len_toNat hp cks, rfl, rfl, rfl⟩,
      fun hn => absurd hn (not_refused_or he (by omega))⟩

/-! ### A register write and its read (R64) -/

/-- A store that leaves the register reading as `n`, followed by the read of its address. -/
theorem read_after_write {s t : State} {a : Addr} {n : Nat} {rest : List HostStep} (h : step s = .next t)
    (he : t.err = false) (hi : t.inbox = .rd a :: rest) (ha : (a, n) ∈ readable t) :
    ∃ t u r, step s = .next t ∧ t.err = false ∧ step t = .next u ∧ u.err = false ∧ u.answer = .word r ∧
      r.toNat = n := by
  obtain ⟨v, hv, hu⟩ := (hostReadMeaning t a rest hi).1 n ha
  exact ⟨t, _, v, h, he, hu, he, rfl, hv⟩

/-- Settles O39: each store keeps the low bits of the bus value, and the read shows them. -/
theorem registerWritesTruncate : Obligations.RegisterWritesTruncate := by
  intro s a w v rest ha he hi
  obtain ⟨-, -, clean⟩ := hostWriteMeaning s a v (.rd a :: rest) hi
  obtain ⟨-, seq, cks, flg, plen, len, -⟩ := clean he
  simp only [List.mem_cons, Prod.mk.injEq, List.not_mem_nil, or_false] at ha
  rcases ha with h | h | h | h | h <;> obtain ⟨rfl, rfl⟩ := h
  · exact read_after_write (seq rfl) he rfl (by simp [readable])
  · exact read_after_write (cks rfl) he rfl (by simp [readable])
  · exact read_after_write (flg rfl) he rfl (by simp [readable])
  · exact read_after_write (plen rfl) he rfl (by simp [readable])
  · exact read_after_write (len rfl) he rfl (by simp [readable])

end Sys2Proof.Machine
end

section
/-! SUPPORT. The statements about commands against each other (`40_checksum.md`, `41_framer.md`): the header in place,
marshalling against unmarshalling, and each compound command against the primitives. -/

namespace Sys2Proof.Machine
open Sys2Proof.Certificates

/-! ### Stores over stores -/

theorem storeBytes_store_comm (m : Memory) {i j : Nat} (v : Byte) (b : List Byte) (h : i < j) :
    (m.store i v).storeBytes j b = (m.storeBytes j b).store i v := by
  induction b generalizing m j with
  | nil => rfl
  | cons w b ih => rw [Memory.storeBytes, store_comm m v w h, ih (m.store j w) (by omega), Memory.storeBytes]

/-- A byte string stored over another of its length leaves no trace of it. -/
theorem storeBytes_storeBytes (m : Memory) (i : Nat) {b c : List Byte} (h : b.length = c.length) :
    (m.storeBytes i b).storeBytes i c = m.storeBytes i c := by
  induction b generalizing m i c with
  | nil => rfl
  | cons v b ih =>
    obtain ⟨w, c, rfl⟩ := List.exists_cons_of_length_eq_add_one h.symm
    have hi : i < i + 1 := Nat.lt_succ_self i
    simp only [Memory.storeBytes]
    rw [storeBytes_store_comm m v b hi, store_store_same, storeBytes_store_comm _ w c hi,
      ih m (i + 1) (by simpa using h), storeBytes_store_comm m w c hi]

/-- Storing the bytes that are there changes no byte. -/
theorem byteAt_storeBytes_of_holds {m : Memory} {i : Nat} {b : List Byte} (h : m.HoldsAt i b) (a : Nat) :
    (m.storeBytes i b).byteAt a = m.byteAt a := by
  by_cases ha : i ≤ a ∧ a < i + b.length
  · obtain ⟨k, rfl⟩ := Nat.exists_eq_add_of_le ha.1
    have hk : k < b.length := by omega
    rw [storeBytes_holds m i b k hk, h k hk]
  · exact byteAt_storeBytes_outside m i b a (by omega)

/-! ### A written frame and a written payload -/

theorem frameBytes_of_holds {s : State} {f : List Byte} (h : s.buf.HoldsAt 0 f) (hf : f.length = s.len.toNat)
    (draw : Nat) : frameBytes s draw = f := by
  rw [frameBytes, ← hf, readBytes_of_holds h]

theorem payloadBytes_of_holds {s : State} {p : List Byte} (h : s.buf.HoldsAt 5 p) (hp : p.length = s.plen.toNat)
    (draw : Nat) : payloadBytes s draw = p := by
  rw [payloadBytes, ← hp]
  exact readBytes_of_holds h draw

/-- The header of a written frame is read alike in every read. -/
theorem takeHeader_of_holds {s : State} {b0 b1 b2 b3 b4 : Byte} {p : List Byte}
    (h : s.buf.HoldsAt 0 (b0 :: b1 :: b2 :: b3 :: b4 :: p)) (draw : Nat) :
    takeHeader s draw =
      { s with seq := be16 b0 b1, cks := be16 b2 b3, flg := b4, plen := BitVec.ofNat 16 (s.len.toNat - hdrSize) } := by
  have read (k : Nat) (hk : k < (b0 :: b1 :: b2 :: b3 :: b4 :: p).length) := readByte_of_byteAt (h k hk) draw
  simp only [Nat.zero_add] at read
  rw [takeHeader, read 0 (by simp), read 1 (by simp), read 2 (by simp), read 3 (by simp), read 4 (by simp)]
  rfl

theorem takeHeader_of_holds_headerBytes {s : State} {seq cks : Half} {flg : Byte} {p : List Byte}
    (h : s.buf.HoldsAt 0 (headerBytes seq cks flg ++ p)) (draw : Nat) :
    takeHeader s draw =
      { s with seq := seq, cks := cks, flg := flg, plen := BitVec.ofNat 16 (s.len.toNat - hdrSize) } := by
  rw [takeHeader_of_holds h, be16_hi_lo, be16_hi_lo]

/-- A byte string of at least five bytes is a header and a payload. -/
theorem exists_header_of_length {f : List Byte} (h : 5 ≤ f.length) :
    ∃ b0 b1 b2 b3 b4 p, f = b0 :: b1 :: b2 :: b3 :: b4 :: p :=
  match f, h with
  | b0 :: b1 :: b2 :: b3 :: b4 :: p, _ => ⟨b0, b1, b2, b3, b4, p, rfl⟩

theorem headerBytes_be16 (b0 b1 b2 b3 b4 : Byte) :
    headerBytes (be16 b0 b1) (be16 b2 b3) b4 = [b0, b1, b2, b3, b4] := by simp [headerBytes]

/-- `PLEN` as it is taken from the frame length that a marshalling command left. -/
theorem plen_of_putHeader_len {s : State} (hp : s.plen.toNat ≤ s.cfg.maxPacketSize.val) (c : Half) :
    BitVec.ofNat 16 ((putHeader s c).len.toNat - hdrSize) = s.plen := by
  rw [putHeader_len_toNat hp, hdrSize, Nat.add_sub_cancel_left, BitVec.ofNat_toNat, BitVec.setWidth_eq]

/-- The header put before a written payload makes a written frame. -/
theorem putHeader_holds_frame {s : State} {p : List Byte} (h : s.buf.HoldsAt 5 p) (c : Half) :
    (putHeader s c).buf.HoldsAt 0 (headerBytes s.seq c s.flg ++ p) := by
  refine holdsAt_append.2 ⟨storeBytes_holds s.buf 0 _, fun k hk => ?_⟩
  rw [headerBytes_length, byteAt_putHeader s c (by omega)]
  exact h k hk

theorem frame_length {s : State} {p : List Byte} (hp : s.plen.toNat ≤ s.cfg.maxPacketSize.val)
    (hl : p.length = s.plen.toNat) (c : Half) :
    (headerBytes s.seq c s.flg ++ p).length = (putHeader s c).len.toNat := by
  rw [putHeader_len_toNat hp, List.length_append, headerBytes_length, hl]

/-- A frame whose payload passed the payload check passes the length check. -/
theorem putHeader_len_le_bufSize {s : State} (hp : s.plen.toNat ≤ s.cfg.maxPacketSize.val) (c : Half) :
    (putHeader s c).len.toNat ≤ s.bufSize := by
  rw [putHeader_len_toNat hp, bufSize_eq]
  omega

/-! ### The checksum in place (R137) -/

theorem hiByte_loByte_toNat (v : Half) : (hiByte v).toNat * 256 + (loByte v).toNat = v.toNat := by
  rw [← be16_toNat, be16_hi_lo]

/-- The checksum field is one aligned word of the frame. -/
theorem wsum_frame_eq (pad : OddPad) (seq c : Half) (flg : Byte) (p : List Byte) :
    wsum pad (headerBytes seq c flg ++ p) = wsum pad (headerBytes seq 0 flg ++ p) + c.toNat := by
  have zero : (0 : Half).toNat = 0 := rfl
  simp only [headerBytes, List.cons_append, wsum_cons_cons, hiByte_loByte_toNat, zero]
  omega

/-- Settles O10: the word in place is the summand that `verify` adds. -/
theorem checksumInPlaceAddsItself : Obligations.ChecksumInPlaceAddsItself := by
  intro pad b0 b1 b4 c p _
  have sum := wsum_frame_eq pad (be16 b0 b1) c b4 p
  exact ⟨sum, by rw [sum, verify, beq_iff_eq]⟩

/-- A frame with its computed checksum in place sums to all ones (R135, R137). -/
theorem fold_frame_of_compute (pad : OddPad) (seq : Half) (flg : Byte) {p : List Byte}
    (h : (headerBytes seq 0 flg ++ p).length ≤ 65535) :
    fold (wsum pad (headerBytes seq (BitVec.ofNat 16 (compute pad (headerBytes seq 0 flg ++ p))) flg ++ p)) =
      0xFFFF := by
  have ok := verifyAcceptsTheComputedChecksum pad _ h
  rwa [verify, beq_iff_eq, ← wsum_frame_eq] at ok

/-! ### What each command does to a written frame -/

theorem execCsumCompute_of_holds {s : State} {f : List Byte} (he : s.err = false) (hl : s.len.toNat ≤ s.bufSize)
    (hf : f.length = s.len.toNat) (h : s.buf.HoldsAt 0 f) :
    execCsumCompute s =
      .next (clearResults (showSum (wsum s.cfg.oddPad f) (compute s.cfg.oddPad f) (s.drawn 1))) := by
  rw [execCsumCompute, gatedLen_fits he hl, frameBytes_of_holds h hf]

theorem execCsumVerify_of_holds {s : State} {f : List Byte} (he : s.err = false) (hl : s.len.toNat ≤ s.bufSize)
    (hf : f.length = s.len.toNat) (h : s.buf.HoldsAt 0 f) :
    execCsumVerify s =
      .next (setResults (verify s.cfg.oddPad f s.cks) false 0
        (showSum (wsum s.cfg.oddPad f + s.cks.toNat) (fold (wsum s.cfg.oddPad f + s.cks.toNat)) (s.drawn 1))) := by
  rw [execCsumVerify, gatedLen_fits he hl, frameBytes_of_holds h hf]

theorem execHdrPack_fits {s : State} (he : s.err = false) (hp : s.plen.toNat ≤ s.cfg.maxPacketSize.val) :
    execHdrPack s = .next (clearResults (putHeader s s.cks)) := gatedPlen_fits he hp _

theorem execHdrUnpack_long {s : State} (he : s.err = false) (h5 : 5 ≤ s.len.toNat) (hl : s.len.toNat ≤ s.bufSize) :
    execHdrUnpack s = .next (clearResults ((takeHeader s s.draws).drawn 1)) := gatedLen_long he h5 hl _

/-- The frame that `PKT.ENCODE` makes of a written payload (R155). -/
theorem execPktEncode_of_holds {s : State} {p f0 : List Byte} (he : s.err = false)
    (hp : s.plen.toNat ≤ s.cfg.maxPacketSize.val) (hl : p.length = s.plen.toNat) (h : s.buf.HoldsAt 5 p)
    (hf : f0 = headerBytes s.seq 0 s.flg ++ p) :
    execPktEncode s = .next
      (clearResults (showSum (wsum s.cfg.oddPad f0) (compute s.cfg.oddPad f0)
        { (putHeader s (BitVec.ofNat 16 (compute s.cfg.oddPad f0))).drawn 1 with
          cks := BitVec.ofNat 16 (compute s.cfg.oddPad f0) })) :=
  execPktEncode_fits he hp (by rw [hf, payloadBytes_of_holds h hl])

/-- The verdict of `PKT.DECODE` on a written frame (R158). -/
theorem execPktDecode_of_holds {s : State} {b0 b1 b2 b3 b4 : Byte} {p f : List Byte} (he : s.err = false)
    (hl : s.len.toNat ≤ s.bufSize) (hf : f = b0 :: b1 :: b2 :: b3 :: b4 :: p) (hlen : f.length = s.len.toNat)
    (h : s.buf.HoldsAt 0 f) :
    execPktDecode s = .next
      (setResults (decide (fold (wsum s.cfg.oddPad f) = 0xFFFF)) false
        (if fold (wsum s.cfg.oddPad f) = 0xFFFF then kindBits b4 else 0)
        (showSum (wsum s.cfg.oddPad f) (fold (wsum s.cfg.oddPad f)) ((takeHeader s s.draws).drawn 3))) := by
  have h5 : 5 ≤ s.len.toNat := by rw [← hlen, hf]; simp
  have flags : s.buf.byteAt 4 = some b4 := by subst hf; exact h 4 (by simp)
  rw [execPktDecode_long he h5 hl, frameBytes_of_holds h hlen, readByte_of_byteAt flags]
  rw [hf] at h
  rw [takeHeader_of_holds h, takeHeader_of_holds h]

/-- The verdict of `PKT.DECODE` on a written frame, given by its fields. -/
theorem execPktDecode_of_holds_headerBytes {s : State} {seq cks : Half} {flg : Byte} {p f : List Byte}
    (he : s.err = false) (hl : s.len.toNat ≤ s.bufSize) (hf : f = headerBytes seq cks flg ++ p)
    (hlen : f.length = s.len.toNat) (h : s.buf.HoldsAt 0 f) :
    execPktDecode s = .next
      (setResults (decide (fold (wsum s.cfg.oddPad f) = 0xFFFF)) false
        (if fold (wsum s.cfg.oddPad f) = 0xFFFF then kindBits flg else 0)
        (showSum (wsum s.cfg.oddPad f) (fold (wsum s.cfg.oddPad f))
          (State.drawn
            { s with seq := seq, cks := cks, flg := flg, plen := BitVec.ofNat 16 (s.len.toNat - hdrSize) } 3))) := by
  rw [execPktDecode_of_holds he hl hf hlen h, takeHeader_of_holds_headerBytes (hf ▸ h)]

/-! ### The header packed again (R151) -/

theorem hdrPack_idempotent {s t : State} (h : exec .hdrPack s = .next t) : exec .hdrPack t = .next t := by
  rcases execHdrPack_cases h with ⟨he, rfl⟩ | ⟨-, -, rfl⟩ | ⟨he, hp, rfl⟩
  · exact unlessFaulted_faulted he _
  · exact unlessFaulted_faulted (raise_err _ s) _
  · refine (execHdrPack_fits (s := clearResults (putHeader s s.cks)) he hp).trans (congrArg _ ?_)
    have stored := storeBytes_storeBytes s.buf 0 (b := headerBytes s.seq s.cks s.flg) rfl
    simp only [clearResults, setResults, putHeader, stored]

/-- The header unpacked from a written frame and packed again is the header that was there. -/
theorem hdrPack_after_hdrUnpack {s : State} {b0 b1 b2 b3 b4 : Byte} (he : s.err = false) (h5 : 5 ≤ s.len.toNat)
    (hl : s.len.toNat ≤ s.bufSize) (h : s.buf.HoldsAt 0 [b0, b1, b2, b3, b4]) :
    ∃ t u, exec .hdrUnpack s = .next t ∧ exec .hdrPack t = .next u ∧ u.len = s.len ∧
      ∀ a, u.buf.byteAt a = s.buf.byteAt a := by
  have hplen := takeHeader_plen_toNat s s.draws
  have hp : (takeHeader s s.draws).plen.toNat ≤ s.cfg.maxPacketSize.val := by rw [bufSize_eq] at hl; omega
  refine ⟨_, _, execHdrUnpack_long he h5 hl,
    execHdrPack_fits (s := clearResults ((takeHeader s s.draws).drawn 1)) he hp, ?_, fun a => ?_⟩
  · rw [← BitVec.toNat_inj]
    refine (putHeader_len_toNat (s := takeHeader s s.draws) hp 0).trans ?_
    omega
  · rw [takeHeader_of_holds h]
    simp only [clearResults_buf, putHeader_buf, drawn_buf, clearResults_seq, clearResults_cks, clearResults_flg,
      drawn_seq, drawn_cks, drawn_flg, headerBytes_be16]
    exact byteAt_storeBytes_of_holds h a

/-- Settles O28, from the two lemmas above. -/
theorem hdrPackInvertsHdrUnpack : Obligations.HdrPackInvertsHdrUnpack :=
  ⟨fun _ _ => hdrPack_idempotent, fun _ _ _ _ _ _ => hdrPack_after_hdrUnpack⟩

/-! ### The compound commands against the primitives (R156, R159) -/

/-- Settles O29: the first header and the payload are the zero-checksum image, and the second header is stored over the
first. -/
theorem pktEncodeEqualsThePrimitives : Obligations.PktEncodeEqualsThePrimitives := by
  intro s p he hp hl h
  obtain ⟨t1, ht1⟩ : ∃ t1, t1 = clearResults (putHeader { s with cks := 0 } 0) := ⟨_, rfl⟩
  have packed : exec .hdrPack { s with cks := 0 } = .next t1 := by
    rw [ht1]
    exact execHdrPack_fits (s := { s with cks := 0 }) he hp
  obtain ⟨f0, hf0⟩ : ∃ f0, f0 = headerBytes s.seq 0 s.flg ++ p := ⟨_, rfl⟩
  obtain ⟨t2, ht2⟩ : ∃ t2,
    t2 = clearResults (showSum (wsum s.cfg.oddPad f0) (compute s.cfg.oddPad f0) (t1.drawn 1)) := ⟨_, rfl⟩
  have computed : exec .csumCompute t1 = .next t2 := by
    have fits := putHeader_len_le_bufSize hp 0
    have imageLength := frame_length hp hl 0
    have image := putHeader_holds_frame h 0
    rw [ht2, hf0, ht1]
    exact execCsumCompute_of_holds (s := clearResults (putHeader { s with cks := 0 } 0)) he fits imageLength image
  have repacked : exec .hdrPack { t2 with cks := t2.res } =
      .next (clearResults (putHeader { t2 with cks := t2.res } t2.res)) := by
    rw [ht2, ht1]
    exact execHdrPack_fits he hp
  refine ⟨t1, t2, _, s.draws + 1, packed, computed, repacked, ?_⟩
  refine (execPktEncode_of_holds he hp hl h hf0).trans (congrArg _ ?_)
  have stored (c : Half) := storeBytes_storeBytes s.buf 0 (b := headerBytes s.seq 0 s.flg)
    (c := headerBytes s.seq c s.flg) rfl
  rw [ht2, ht1]
  simp only [clearResults, setResults, showSum, putHeader, State.drawn, stored]

/-- Settles O31: a written frame is read alike by the three reads, and a checksum of 0 adds nothing to its sum. -/
theorem pktDecodeEqualsUnpackAndVerify : Obligations.PktDecodeEqualsUnpackAndVerify := by
  intro s f he h5 hl hlen h
  obtain ⟨b0, b1, b2, b3, b4, p, hf⟩ := exists_header_of_length (hlen ▸ h5)
  obtain ⟨t1, ht1⟩ : ∃ t1, t1 = clearResults ((takeHeader s s.draws).drawn 1) := ⟨_, rfl⟩
  have unpacked : exec .hdrUnpack s = .next t1 := by
    rw [ht1]
    exact execHdrUnpack_long he h5 hl
  have verified : exec .csumVerify { t1 with cks := 0 } = .next
      (setResults (verify s.cfg.oddPad f 0) false 0
        (showSum (wsum s.cfg.oddPad f) (fold (wsum s.cfg.oddPad f)) ({ t1 with cks := 0 }.drawn 1))) := by
    rw [ht1]
    exact execCsumVerify_of_holds he hl hlen h
  refine ⟨t1, _, if fold (wsum s.cfg.oddPad f) = 0xFFFF then kindBits b4 else 0, s.draws + 3, unpacked,
    verified, ?_⟩
  refine (execPktDecode_of_holds he hl hf hlen h).trans (congrArg _ ?_)
  rw [ht1]
  rfl

/-! ### What the host computes and encodes is accepted (R135, R157, R200 to R204) -/

/-- Settles O32: the result that `CSUM.COMPUTE` shows is the computed checksum. -/
theorem computeThenVerifyIsValid : Obligations.ComputeThenVerifyIsValid := by
  intro s b he hl hb h
  have ok := verifyAcceptsTheComputedChecksum s.cfg.oddPad b (by have := s.len.isLt; omega)
  refine ⟨_, _, execCsumCompute_of_holds he hl hb h, execCsumVerify_of_holds he hl hb h, ok, he, ?_⟩
  exact congrArg (BitVec.ofNat 16) (beq_iff_eq.1 ok)

/-- Settles O30: the frame that `PKT.ENCODE` leaves is written, and sums to all ones. -/
theorem encodeDecodeRoundTrip : Obligations.EncodeDecodeRoundTrip := by
  intro s p he hp hl h
  obtain ⟨f0, hf0⟩ : ∃ f0, f0 = headerBytes s.seq 0 s.flg ++ p := ⟨_, rfl⟩
  obtain ⟨c, hc⟩ : ∃ c, c = BitVec.ofNat 16 (compute s.cfg.oddPad f0) := ⟨_, rfl⟩
  have encoded := execPktEncode_of_holds he hp hl h hf0
  rw [← hc] at encoded
  have fits := putHeader_len_le_bufSize hp c
  have frameLength := frame_length hp hl c
  have written := putHeader_holds_frame h c
  have allOnes : fold (wsum s.cfg.oddPad (headerBytes s.seq c s.flg ++ p)) = 0xFFFF := by
    have := bufSize_le s
    rw [hc, hf0]
    exact fold_frame_of_compute _ _ _ (by rw [frame_length hp hl]; exact (putHeader_len_le_bufSize hp 0).trans this)
  refine ⟨_, _, encoded, execPktDecode_of_holds_headerBytes he fits rfl frameLength written, ?_⟩
  exact ⟨decide_eq_true allOnes, rfl, he, rfl, rfl, plen_of_putHeader_len hp c, rfl, rfl, if_pos allOnes,
    (holdsAt_append.1 written).2⟩

/-- The bit of `KIND` that the host tests for a kind is that kind's row of R97. -/
theorem kindBits_getLsbD_iff (f : Byte) (k : Kind) : (kindBits f).getLsbD (kindBit k) = true ↔ k ∈ kindsOf f := by
  rw [Laws.Roundtrip.mem_kindsOf]
  cases k <;>
    simp only [kindBits, kindBit, BitVec.getLsbD_append, BitVec.getLsbD_ofBool] <;>
    simp [flagRows, isSyn, isSynack, isAck, isFin, isFinack, isNack, isData, hasFlags, flagSyn, flagAck, flagFin,
      flagFinAck, flagNack, flagData]

/-- Settles O33: `KIND` is the kind vector of the frame's flags byte where the verdict is given, and 0 elsewhere. -/
theorem acceptedFramesAreValidAndOfTheirKind : Obligations.AcceptedFramesAreValidAndOfTheirKind := by
  intro s b0 b1 b2 b3 b4 p f k he hl hf hlen h
  refine ⟨_, execPktDecode_of_holds he hl hf hlen h, ?_⟩
  rw [State.accepts, setResults_valid, setResults_kind, Bool.and_eq_true, decide_eq_true_iff, ← kindBits_getLsbD_iff]
  exact and_congr_right fun hv => by rw [if_pos hv]

end Sys2Proof.Machine
end
